-- ==== Sys2Proof/Word.lean ====
section
/-! DEFINITION. The byte: the one word width of the core (00_scope R8 `CELL_WIDTH`, `REG_WIDTH`; 10_state R20;
20_memory R57). Every register, memory cell, opcode and operand is a byte, read as an unsigned number (R10). -/

namespace Sys2Proof

/-- An unsigned 8-bit value (R10, R20, R50). `+`, `-` and `*` on it are the spec's `+_8`, `-_8` and `*_8` (R12). -/
abbrev Byte := BitVec 8

end Sys2Proof
end

