-- ==== Sys2Proof/Config.lean ====
section
/-! DEFINITION. The implementation parameters of 00_scope R8 that are fixed for this hardware, and the type of the
one parameter the spec keeps open, `OpcodeMap` (R9, R37, 30_encoding R86). The default value of that parameter stands
in Decode.lean. -/

namespace Sys2Proof

/-- `MEM_SIZE` (R8, R50): the number of memory cells. -/
@[simp] abbrev Config.memSize : Nat := 256

/-- `NREGS` (R8, R20): the number of general registers. -/
@[simp] abbrev Config.numRegs : Nat := 8

/-- `SP_INDEX` (R8, R21): the register that is the stack pointer. -/
@[simp] abbrev Config.spIndex : Nat := 7

/-- `SP_RESET` (R8, R26): the stack pointer after reset, 244 (0xF4). -/
@[simp] abbrev Config.spReset : Byte := 244#8

/-- `ResetFill` (R8, R26, R66): what R0 to R6 and every memory cell hold after reset. The spec's own decision D6;
unsafe for a claim that leans on it (log 3). -/
@[simp] abbrev Config.resetFill : Byte := 0#8

/-- The eleven instruction names of the fixed table (R2, R86), without operands. -/
inductive Mnemonic where
  | hlt | ldi | prn | add | mul | push | pop | cmp | jmp | jeq | jne
  deriving DecidableEq, Repr

/-- All eleven, in the order of R86's table. -/
def Mnemonic.all : List Mnemonic :=
  [.hlt, .ldi, .prn, .add, .mul, .push, .pop, .cmp, .jmp, .jeq, .jne]

/-- The parameter `OpcodeMap` (R9, R37, R86): an injective map from the instructions to opcode bytes. It is a constant
of the core, not state (R37), and it carries its own injectivity, so no statement need assume it. -/
structure OpcodeMap where
  /-- the opcode byte of an instruction -/
  byte : Mnemonic → Byte
  /-- R86: "`OpcodeMap` must be injective" -/
  inj : ∀ j k, byte j = byte k → j = k

end Sys2Proof
end

