-- ==== Sys2Proof/Machine/State.lean ====
section
/-! DEFINITION. The architectural state, the tuple `(x[0..7], pc, FL, running, fault, mem[0..255], out)` of
spec/10_state.md, as plain data; the fault causes and the fault record (10_state R36, 60_exceptions R200); the two
reasons for which the core has no step; and the state after reset (70_reset_and_hazards R230). -/

namespace Sys2Proof.Machine

/-- The flag register FL (R31): the set of the flags L, G, E that are set, which is empty or one of them (R11, R34).
`clear`, no flag set, arises neither from reset nor from CMP (R34; log 6). -/
inductive Flags where
  | clear
  | less
  | greater
  | equal
  deriving DecidableEq, Repr

/-- The ALU's operation kinds (42_alu R150, R151; codes in 60_exceptions R201). The last five are unsupported, and no
opcode selects them (R152; log 7). -/
inductive AluKind where
  | add | mul | cmp | sub | and | or | xor | other
  deriving DecidableEq, Repr

/-- The fault kinds of R200, each with the `info` it records. `IllegalInstruction(op, pc)` has its pc in the record. -/
inductive CoreFault where
  /-- `OutOfBounds(memory, addr)`: raised by the fetch unit (R111, R53) -/
  | outOfBoundsMemory (addr : Nat)
  /-- `OutOfBounds(register, i)`, also `InvalidRegister`: raised by a handler (R23, R118; 90_conflicts C3) -/
  | outOfBoundsRegister (i : Byte)
  /-- `IllegalInstruction(op, pc)`: raised by the decoder (R90, R113) -/
  | illegalInstruction (op : Byte)
  /-- `UnsupportedAluOp(k)`: raised by the ALU; no program reaches it (R151, R152) -/
  | unsupportedAluOp (k : AluKind)
  deriving DecidableEq, Repr

/-- A fault record `(kind, info, pc)` (R36, R203): `pc` is the pc of the faulting step. -/
structure FaultRecord where
  cause : CoreFault
  pc : Nat
  deriving DecidableEq, Repr

/-- The whole state of the core. -/
structure State where
  /-- the general registers x[0] to x[7]; x[7] is SP, the same cell (R20, R21) -/
  x : Vector Byte 8
  /-- the program counter, which never wraps (R27, R28; log 5) -/
  pc : Nat
  /-- the condition flags FL (R31) -/
  fl : Flags
  /-- the running flag (R35) -/
  running : Bool
  /-- the fault latch (R36) -/
  fault : Option FaultRecord
  /-- memory (R50): the cells that do not hold `ResetFill`, addresses rising (`Memory.wf`; log 9) -/
  mem : List Host.Cell
  /-- the output sequence, oldest value first (R38) -/
  out : List Byte
  deriving DecidableEq, Repr

/-- Why the core has NO step in a state (R110; 93_implementation_defined U18 `stuck`). A fault that an instruction
raises is not here: it is a next state with the latch set (R117, R206; log 4). -/
inductive Fault where
  /-- raised by `step` when `running = false` and no fault is latched: HLT stopped the core. Safe: R110 gives the core
  no step there until reset. -/
  | halted
  /-- raised by `step` when a fault is latched: the record is the latched one. Safe: R110 and R207 give the core no
  step there until reset. -/
  | faultLatched (r : FaultRecord)
  deriving DecidableEq, Repr

/-- Instructions the model gives no meaning. -/
inductive Refusal where
  /-- raised by `exec` for an instruction without a meaning. No arm of `exec` answers it: all eleven are modelled.
  Safe. -/
  | notModelled (mnemonic : String)
  deriving DecidableEq, Repr

/-- The state right after reset, R230's table: SP 244, R0 to R6 zero, pc 0, FL = {E}, running, no fault, every memory
cell zero (nothing listed), no output. The zeros are the spec's own decision D6 (log 3). -/
def State.reset : State where
  x := #v[Config.resetFill, Config.resetFill, Config.resetFill, Config.resetFill,
          Config.resetFill, Config.resetFill, Config.resetFill, Config.spReset]
  pc := 0
  fl := .equal
  running := true
  fault := none
  mem := []
  out := []

end Sys2Proof.Machine
end

