-- ==== Sys2Proof/Machine/Ops.lean ====
section
/-! DEFINITION. The named operations over the state: memory as canonical data (20_memory), the primitives `MemRead` and
`MemWrite` (R51), the stack pointer (10_state R21), the memory address multiplexer (R54), `emit` (41_data_movement R143),
fault entry (40 R117, 60_exceptions R206) and the pc sequencer (40 R115, R116). The core has no return from a fault
(R207), so no operation stands beside fault entry: only `State.reset` clears the latch. -/

namespace Sys2Proof.Machine

/-! ### Memory as data -/

/-- The byte at address `a`: the first entry listed for it, else `ResetFill` (R66). -/
def memGet : List Host.Cell → Nat → Byte
  | [], _ => Config.resetFill
  | (k, v) :: rest, a => if k = a then v else memGet rest a

/-- Put `(a, v)` in the list at its place by address. -/
def memInsert : List Host.Cell → Nat → Byte → List Host.Cell
  | [], a, v => [(a, v)]
  | (k, w) :: rest, a, v =>
    if k < a then (k, w) :: memInsert rest a v
    else if k = a then (a, v) :: rest
    else (a, v) :: (k, w) :: rest

/-- Set the byte at address `a`. Writing `ResetFill` removes the entry, so that equal memories are equal lists. -/
def memSet (mem : List Host.Cell) (a : Nat) (v : Byte) : List Host.Cell :=
  if v = Config.resetFill then mem.filter (fun c => c.1 ≠ a) else memInsert mem a v

/-- Addresses strictly rising. -/
def memRising : List Host.Cell → Bool
  | [] => true
  | c :: rest => rest.all (fun d => c.1 < d.1) && memRising rest

/-- The canonical form: addresses strictly rising, inside the address space (R50), and no entry equal to what an
unlisted address reads as. -/
def Memory.wf (mem : List Host.Cell) : Bool :=
  memRising mem && mem.all (fun c => c.1 < Config.memSize && c.2 != Config.resetFill)

/-! ### Memory as the spec's primitives (R11, R51) -/

/-- `MemRead(addr, 1)`: `mem[addr]`, or `OutOfBounds(memory, addr)` from 256 up. -/
def memRead (s : State) (addr : Nat) : Except CoreFault Byte :=
  if addr < Config.memSize then .ok (memGet s.mem addr) else .error (.outOfBoundsMemory addr)

/-- `MemWrite(addr, 1, v)`: sets `mem[addr]`, or raises `OutOfBounds(memory, addr)` and writes nothing. -/
def memWrite (s : State) (addr : Nat) (v : Byte) : Except CoreFault State :=
  if addr < Config.memSize then .ok { s with mem := memSet s.mem addr v }
  else .error (.outOfBoundsMemory addr)

/-! ### The stack pointer: the cell x[7] (R21) -/

/-- `SP`, an alias of `x[7]` (R11, R21). -/
def sp (s : State) : Byte := s.x[Config.spIndex]

/-- Write `SP`. -/
def setSp (s : State) (v : Byte) : State := { s with x := s.x.set Config.spIndex v }

/-! ### The memory address multiplexer (R54) -/

/-- The six address sources. `stackW` is read after PUSH's decrement, `stackR` before POP's increment (R171, R173). -/
inductive MemSource where
  | fetch0
  | fetch1
  | fetch2
  | stackW
  | stackR
  | load (addr : Byte)
  deriving DecidableEq, Repr

/-- The address memory sees for a source. The fetch sources are computed at pc's width, not mod 256 (R54). -/
def memAddress (src : MemSource) (s : State) : Nat :=
  match src with
  | .fetch0 => s.pc
  | .fetch1 => s.pc + 1
  | .fetch2 => s.pc + 2
  | .stackW => (sp s).toNat
  | .stackR => (sp s).toNat
  | .load addr => addr.toNat

/-! ### Output -/

/-- `emit(v)`: append `v` to the output sequence (R38, R143). -/
def emit (s : State) (v : Byte) : State := { s with out := s.out ++ [v] }

/-! ### Handler results, fault entry, the pc sequencer -/

/-- What a handler that completes tells the sequencer (R13, R115): advance pc by N bytes, or pc is already set. -/
inductive PcUpdate where
  | advance (n : Nat)
  | pcSet
  deriving DecidableEq, Repr

/-- A handler's result (R13): the state it wrote and its pc contract, or the fault it raised. -/
abbrev Handled := Except CoreFault (State × PcUpdate)

/-- FAULT ENTRY (R117, R206), the one shared operation: `s` is the state BEFORE the step, so every write of the step is
discarded; the latch takes the cause and the pc of the step, and nothing else changes. -/
def takeFault (f : CoreFault) (s : State) : State := { s with fault := some ⟨f, s.pc⟩ }

/-- The pc sequencer (R116, R119): `s` is the state before the step. `Advance(N)` gives pc + N, not reduced mod 256;
`PcSet` keeps the pc the handler wrote; a fault is taken. -/
def sequencePc (s : State) (r : Handled) : Host.Outcome State Fault Refusal :=
  match r with
  | .ok (t, .advance n) => .next { t with pc := s.pc + n }
  | .ok (t, .pcSet) => .next t
  | .error f => .next (takeFault f s)

end Sys2Proof.Machine
end

