-- ==== Sys2Proof/Machine/Operands.lean ====
section
/-! DEFINITION. The operand forms: a register operand is the whole operand byte, checked exactly when the register is
read or written (10_state R23, 30_encoding R85, 40 R118). LDI's immediate is the byte itself (R88), and a jump's target
is the value of the register the operand names (R89). -/

namespace Sys2Proof.Machine

/-- Read `x[i]` through an operand byte; `OutOfBounds(register, i)` from 8 up, with no masking (R11, R23, R85). -/
def readReg (s : State) (i : Byte) : Except CoreFault Byte :=
  if h : i.toNat < 8 then .ok (s.x[i.toNat]'h) else .error (.outOfBoundsRegister i)

/-- Write `x[i]` through an operand byte, with the same check (R11, R23). -/
def writeReg (s : State) (i : Byte) (v : Byte) : Except CoreFault State :=
  if h : i.toNat < 8 then .ok { s with x := s.x.set i.toNat v h }
  else .error (.outOfBoundsRegister i)

/-- Jump to the value of the register `i` names: an absolute address 0..255, zero-extended (R89, R116, R183). -/
def jumpToReg (s : State) (i : Byte) : Handled := do
  let v ← readReg s i
  return ({ s with pc := v.toNat }, .pcSet)

end Sys2Proof.Machine
end

