-- ==== Sys2Proof/Machine/Flags.lean ====
section
/-! DEFINITION. The condition flags (10_state R31 to R34) and the ALU (42_alu R150 to R153): one shared unit, whose
outputs are a result with its write enable and a flag value with its write enable. -/

namespace Sys2Proof.Machine

/-- `E in FL`, the one flag an instruction reads (R32). -/
def eSet (s : State) : Bool := s.fl == .equal

/-- The register image of FL, `0b00000LGE` (R34). No instruction observes it. -/
def flagsImage : Flags → Byte
  | .clear => 0b000#8
  | .equal => 0b001#8
  | .greater => 0b010#8
  | .less => 0b100#8

/-- The flag CMP sets: the order of the two operands as unsigned numbers (R158, R159). -/
def compareFlags (p q : Byte) : Flags :=
  if p.toNat < q.toNat then .less
  else if q.toNat < p.toNat then .greater
  else .equal

/-- R12's `+_8`: the exact sum, then mod 256. -/
def add8 (p q : Byte) : Byte := BitVec.ofNat 8 ((p.toNat + q.toNat) % 256)

/-- R12's `*_8`: the exact product, then mod 256 (R157). -/
def mul8 (p q : Byte) : Byte := BitVec.ofNat 8 ((p.toNat * q.toNat) % 256)

/-- R12's `-_8`: the exact difference, then mod 256, in 0..255. -/
def sub8 (p q : Byte) : Byte := BitVec.ofNat 8 ((p.toNat + 256 - q.toNat) % 256)

/-- The ALU's outputs (R150): `res` is present when the write enable to x[a] is on, `fl` when the enable to FL is. -/
structure AluOut where
  res : Option Byte
  fl : Option Flags
  deriving DecidableEq, Repr

/-- The ALU's function for each kind (R151). -/
def alu (k : AluKind) (p q : Byte) : Except CoreFault AluOut :=
  match k with
  | .add => .ok ⟨some (add8 p q), none⟩
  | .mul => .ok ⟨some (mul8 p q), none⟩
  | .cmp => .ok ⟨none, some (compareFlags p q)⟩
  | .sub => .error (.unsupportedAluOp .sub)
  | .and => .error (.unsupportedAluOp .and)
  | .or => .error (.unsupportedAluOp .or)
  | .xor => .error (.unsupportedAluOp .xor)
  | .other => .error (.unsupportedAluOp .other)

/-- Write the ALU's enabled outputs: `res` to x[a], `fl` to FL (R150). -/
def aluWriteBack (s : State) (a : Byte) (o : AluOut) : Except CoreFault State := do
  let s1 ← match o.res with
    | some v => writeReg s a v
    | none => .ok s
  match o.fl with
  | some f => return { s1 with fl := f }
  | none => return s1

/-- The body every ALU instruction shares (R154, R156, R158): read x[a], then x[b] (R118: `a` is checked first), run the
ALU with the kind, write its outputs, advance by 3. -/
def aluInstr (k : AluKind) (a b : Byte) (s : State) : Handled := do
  let p ← readReg s a
  let q ← readReg s b
  let o ← alu k p q
  let t ← aluWriteBack s a o
  return (t, .advance 3)

end Sys2Proof.Machine
end

