-- ==== Sys2Proof/Machine/Alu.lean ====
section
/-! DEFINITION. The ALU instructions (spec/42_alu.md): ADD, MUL and CMP, each the shared ALU body with its kind. -/

namespace Sys2Proof.Machine

/-- `ADD Ra, Rb` (R154, R155). -/
def execAdd (a b : Byte) (s : State) : Host.Outcome State Fault Refusal :=
  sequencePc s (aluInstr .add a b s)

/-- `MUL Ra, Rb` (R156, R157). -/
def execMul (a b : Byte) (s : State) : Host.Outcome State Fault Refusal :=
  sequencePc s (aluInstr .mul a b s)

/-- `CMP Ra, Rb` (R158, R159). -/
def execCmp (a b : Byte) (s : State) : Host.Outcome State Fault Refusal :=
  sequencePc s (aluInstr .cmp a b s)

end Sys2Proof.Machine
end

