-- ==== Sys2Proof/Machine/Control.lean ====
section
/-! DEFINITION. The control instructions (spec/44_control.md): HLT, JMP, JEQ and JNE. -/

namespace Sys2Proof.Machine

/-- `HLT` (R180, R181): clears `running` and advances by 1 (D13). -/
def handleHlt (s : State) : Handled :=
  .ok ({ s with running := false }, .advance 1)

/-- HLT: its handler under the pc sequencer. -/
def execHlt (s : State) : Host.Outcome State Fault Refusal :=
  sequencePc s (handleHlt s)

/-- `JMP Rn` (R182). -/
def execJmp (a : Byte) (s : State) : Host.Outcome State Fault Refusal :=
  sequencePc s (jumpToReg s a)

/-- `JEQ Rn` (R184): taken when E is set; the operand is checked only when taken (D11). -/
def handleJeq (a : Byte) (s : State) : Handled :=
  if eSet s then jumpToReg s a else .ok (s, .advance 2)

/-- JEQ: its handler under the pc sequencer. -/
def execJeq (a : Byte) (s : State) : Host.Outcome State Fault Refusal :=
  sequencePc s (handleJeq a s)

/-- `JNE Rn` (R186): taken when E is clear; the operand is checked only when taken (D11). -/
def handleJne (a : Byte) (s : State) : Handled :=
  if eSet s then .ok (s, .advance 2) else jumpToReg s a

/-- JNE: its handler under the pc sequencer. -/
def execJne (a : Byte) (s : State) : Host.Outcome State Fault Refusal :=
  sequencePc s (handleJne a s)

end Sys2Proof.Machine
end

