-- ==== Sys2Proof/Machine/DataMovement.lean ====
section
/-! DEFINITION. Data movement (spec/41_data_movement.md): LDI and PRN. -/

namespace Sys2Proof.Machine

/-- `LDI Rd, imm8` (R140): the handler. -/
def handleLdi (a b : Byte) (s : State) : Handled := do
  let t ← writeReg s a b
  return (t, .advance 3)

/-- LDI: its handler under the pc sequencer. -/
def execLdi (a b : Byte) (s : State) : Host.Outcome State Fault Refusal :=
  sequencePc s (handleLdi a b s)

/-- `PRN Rn` (R142): the handler. -/
def handlePrn (a : Byte) (s : State) : Handled := do
  let v ← readReg s a
  return (emit s v, .advance 2)

/-- PRN: its handler under the pc sequencer. -/
def execPrn (a : Byte) (s : State) : Host.Outcome State Fault Refusal :=
  sequencePc s (handlePrn a s)

end Sys2Proof.Machine
end

