-- ==== Sys2Proof/Machine/Stack.lean ====
section
/-! DEFINITION. The stack instructions (spec/43_stack.md): PUSH pre-decrements SP, POP post-increments it; both wrap mod
256 (R177), and neither detects a limit. -/

namespace Sys2Proof.Machine

/-- `PUSH Rn` (R170, R171): SP is decremented first, x[a] is read AFTER that (R175), and its byte stored at the new SP.
A bad `a` raises after the decrement; fault entry discards it (R117). -/
def handlePush (a : Byte) (s : State) : Handled := do
  let s1 := setSp s (sub8 (sp s) 1#8)
  let v ← readReg s1 a
  let t ← memWrite s1 (memAddress .stackW s1) v
  return (t, .advance 2)

/-- PUSH: its handler under the pc sequencer. -/
def execPush (a : Byte) (s : State) : Host.Outcome State Fault Refusal :=
  sequencePc s (handlePush a s)

/-- `POP Rn` (R172, R173): the byte at SP goes to x[a]; then SP is incremented, reading x[7] AFTER that write (R174). -/
def handlePop (a : Byte) (s : State) : Handled := do
  let v ← memRead s (memAddress .stackR s)
  let s1 ← writeReg s a v
  return (setSp s1 (add8 (sp s1) 1#8), .advance 2)

/-- POP: its handler under the pc sequencer. -/
def execPop (a : Byte) (s : State) : Host.Outcome State Fault Refusal :=
  sequencePc s (handlePop a s)

end Sys2Proof.Machine
end

