-- ==== Sys2Proof/Syntax.lean ====
section
/-! DEFINITION. The instruction set: one constructor per row of spec/opcode_table.json (00_scope R2, 30_encoding R86),
with the operand bytes its format uses (R81). A register operand is the WHOLE byte, 0..255, not a 3-bit field
(10_state R23, R85): the bytes 8..255 are operands an instruction can carry, and its meaning says what they do. -/

namespace Sys2Proof

/-- An instruction with its operand bytes: `a` is the byte at pc+1, `b` the byte at pc+2 (R15, R81). An operand byte
the format does not use is no part of the instruction (R91). -/
inductive Instr where
  /-- `HLT` (R180), format F1 -/
  | hlt
  /-- `LDI Rd, imm8` (R140), format F3RI: `a` is Rd, `b` the immediate -/
  | ldi (a b : Byte)
  /-- `PRN Rn` (R142), format F2R -/
  | prn (a : Byte)
  /-- `ADD Ra, Rb` (R154), format F3RR -/
  | add (a b : Byte)
  /-- `MUL Ra, Rb` (R156), format F3RR -/
  | mul (a b : Byte)
  /-- `PUSH Rn` (R170), format F2R -/
  | push (a : Byte)
  /-- `POP Rn` (R172), format F2R -/
  | pop (a : Byte)
  /-- `CMP Ra, Rb` (R158), format F3RR -/
  | cmp (a b : Byte)
  /-- `JMP Rn` (R182), format F2R -/
  | jmp (a : Byte)
  /-- `JEQ Rn` (R184), format F2R -/
  | jeq (a : Byte)
  /-- `JNE Rn` (R186), format F2R -/
  | jne (a : Byte)
  deriving DecidableEq, Repr

end Sys2Proof
end

