-- ==== Sys2Proof/WellFormed.lean ====
section
/-! DEFINITION. Which instructions an assembler may write: every register operand names one of the eight registers
(10_state R23, 30_encoding R93 "Register operands are R0 to R7"). The hardware decodes and runs the other instructions
too (R85): they are ill-formed text, not absent encodings. Nothing in decoding or in the meanings assumes this check
(log 17). -/

namespace Sys2Proof

/-- R23: "A register index is valid if and only if it is in 0..7." -/
def validReg (i : Byte) : Bool := i.toNat < Config.numRegs

/-- The operand bytes that name registers, in the order of the formats (R81): LDI's `b` is an immediate and is none. -/
def Instr.regOperands : Instr → List Byte
  | .hlt => []
  | .ldi a _ => [a]
  | .prn a => [a]
  | .add a b => [a, b]
  | .mul a b => [a, b]
  | .push a => [a]
  | .pop a => [a]
  | .cmp a b => [a, b]
  | .jmp a => [a]
  | .jeq a => [a]
  | .jne a => [a]

/-- Every register operand is valid (R23, R93). -/
def Instr.wellFormed (i : Instr) : Bool := i.regOperands.all validReg

end Sys2Proof
end

