-- ==== Sys2Proof/Decode.lean ====
section
/-! DEFINITION. The encoding (spec/30_encoding.md): lengths and formats (R80 to R83), the default opcode map (R86), the
decoder on the three latched bytes (R84, R90, R91), a decoder of a byte string, the encoder, the printer of R93's text,
and `decodeTableWord`, which numbers an instruction's bits as spec/opcode_table.json does. Everything takes the opcode
map as an argument (R9); only `defaultOpcode` knows a byte value. -/

namespace Sys2Proof

/-- The four formats of R81. -/
inductive Format where
  | f1 | f2r | f3ri | f3rr
  deriving DecidableEq, Repr

/-- R81: the format of each instruction. -/
def formatOf : Mnemonic → Format
  | .hlt => .f1
  | .ldi => .f3ri
  | .prn => .f2r
  | .add => .f3rr
  | .mul => .f3rr
  | .push => .f2r
  | .pop => .f2r
  | .cmp => .f3rr
  | .jmp => .f2r
  | .jeq => .f2r
  | .jne => .f2r

/-- R82: the length N of each instruction in bytes, the handler's declared arity (R83), with JMP, JEQ and JNE at 2
(90_conflicts C2). It is not computed from the opcode's bits (C1). -/
def lengthOf : Mnemonic → Nat
  | .hlt => 1
  | .ldi => 3
  | .prn => 2
  | .add => 3
  | .mul => 3
  | .push => 2
  | .pop => 2
  | .cmp => 3
  | .jmp => 2
  | .jeq => 2
  | .jne => 2

/-- The default opcode bytes of R86's table. UNVERIFIED: the spec itself marks them as general knowledge of the LS-8
family, not from its source (G2); unsafe for claims about real images (log 20). -/
def defaultOpcode : Mnemonic → Byte
  | .hlt => 0x01#8
  | .ldi => 0x82#8
  | .prn => 0x47#8
  | .add => 0xA0#8
  | .mul => 0xA2#8
  | .push => 0x45#8
  | .pop => 0x46#8
  | .cmp => 0xA7#8
  | .jmp => 0x54#8
  | .jeq => 0x55#8
  | .jne => 0x56#8

/-- R86's default value of the parameter `OpcodeMap`. -/
def defaultOpcodeMap : OpcodeMap where
  byte := defaultOpcode
  inj := by
    intro j k h
    cases j <;> cases k <;> first | rfl | (revert h; decide)

/-- The name of an instruction, its operands dropped. -/
def Instr.mnemonic : Instr → Mnemonic
  | .hlt => .hlt
  | .ldi _ _ => .ldi
  | .prn _ => .prn
  | .add _ _ => .add
  | .mul _ _ => .mul
  | .push _ => .push
  | .pop _ => .pop
  | .cmp _ _ => .cmp
  | .jmp _ => .jmp
  | .jeq _ => .jeq
  | .jne _ => .jne

/-- Why a decoder refuses: the opcode byte is not in the map (R90), or, for the decoder of a byte string only, the
string ends before the instruction does (log 16). -/
inductive DecodeReject where
  | illegalOpcode (op : Byte)
  | noBytes
  | truncated (need avail : Nat)
  deriving DecidableEq, Repr

/-- R84: the whole opcode byte is compared with the map's values. -/
def lookupOpcode (m : OpcodeMap) (op : Byte) : Option Mnemonic :=
  Mnemonic.all.find? (fun k => m.byte k == op)

/-- R81: the instruction a name and the two operand bytes make. F2R drops `b`, F1 drops both (R91). -/
def build (k : Mnemonic) (a b : Byte) : Instr :=
  match k with
  | .hlt => .hlt
  | .ldi => .ldi a b
  | .prn => .prn a
  | .add => .add a b
  | .mul => .mul a b
  | .push => .push a
  | .pop => .pop a
  | .cmp => .cmp a b
  | .jmp => .jmp a
  | .jeq => .jeq a
  | .jne => .jne a

/-- The decoder (R84, R90, R113) on the three latched bytes `op`, `a`, `b`. -/
def decode (m : OpcodeMap) (op a b : Byte) : Except DecodeReject Instr :=
  match lookupOpcode m op with
  | some k => .ok (build k a b)
  | none => .error (.illegalOpcode op)

/-- The decoder on a byte string: the first instruction and the bytes after it. The core itself always latches three
bytes (R111); this one serves readers of images, so it asks only for the instruction's own N bytes (R82; log 16). -/
def decodeStream (m : OpcodeMap) : List Byte → Except DecodeReject (Instr × List Byte)
  | [] => .error .noBytes
  | op :: rest =>
    match decode m op (rest.getD 0 0#8) (rest.getD 1 0#8) with
    | .error e => .error e
    | .ok i =>
      if lengthOf i.mnemonic ≤ rest.length + 1 then
        .ok (i, (op :: rest).drop (lengthOf i.mnemonic))
      else
        .error (.truncated (lengthOf i.mnemonic) (rest.length + 1))

/-- The encoder (R59, R80, R81): opcode byte first, then the operand bytes the format uses. -/
def encode (m : OpcodeMap) : Instr → List Byte
  | .hlt => [m.byte .hlt]
  | .ldi a b => [m.byte .ldi, a, b]
  | .prn a => [m.byte .prn, a]
  | .add a b => [m.byte .add, a, b]
  | .mul a b => [m.byte .mul, a, b]
  | .push a => [m.byte .push, a]
  | .pop a => [m.byte .pop, a]
  | .cmp a b => [m.byte .cmp, a, b]
  | .jmp a => [m.byte .jmp, a]
  | .jeq a => [m.byte .jeq, a]
  | .jne a => [m.byte .jne, a]

/-- Byte `k` of an instruction whose bits are `w`, bit 0 the least significant bit of the FIRST byte; every bit from
`nbits` up is 0 (the numbering of spec/opcode_table.json). -/
def wordByte (nbits w k : Nat) : Byte := BitVec.ofNat 8 ((w % 2 ^ nbits) >>> (8 * k))

/-- The instruction the decoder reads, under the default opcode map, from an instruction whose bits are `w`. -/
def decodeTableWord (nbits w : Nat) : Option Instr :=
  match decode defaultOpcodeMap (wordByte nbits w 0) (wordByte nbits w 1) (wordByte nbits w 2) with
  | .ok i => some i
  | .error _ => none

/-- The decimal digit of `n < 10` as a character. -/
def digitChar (n : Nat) : Char := Char.ofNat (48 + n)

/-- The canonical decimal form of a byte: base 10, no sign, no leading zero, so 0 is `0` (R143). -/
def decimal (v : Byte) : List Char :=
  let n := v.toNat
  if n < 10 then [digitChar n]
  else if n < 100 then [digitChar (n / 10), digitChar (n % 10)]
  else [digitChar (n / 100), digitChar (n / 10 % 10), digitChar (n % 10)]

/-- R93: a register operand as text. -/
def asmReg (i : Byte) : List Char := 'R' :: decimal i

/-- R93: the text of an instruction, for reading only (one space after the mnemonic, a comma between operands;
log 19). -/
def asm : Instr → List Char
  | .hlt => ['H', 'L', 'T']
  | .ldi a b => ['L', 'D', 'I', ' '] ++ asmReg a ++ [','] ++ decimal b
  | .prn a => ['P', 'R', 'N', ' '] ++ asmReg a
  | .add a b => ['A', 'D', 'D', ' '] ++ asmReg a ++ [','] ++ asmReg b
  | .mul a b => ['M', 'U', 'L', ' '] ++ asmReg a ++ [','] ++ asmReg b
  | .push a => ['P', 'U', 'S', 'H', ' '] ++ asmReg a
  | .pop a => ['P', 'O', 'P', ' '] ++ asmReg a
  | .cmp a b => ['C', 'M', 'P', ' '] ++ asmReg a ++ [','] ++ asmReg b
  | .jmp a => ['J', 'M', 'P', ' '] ++ asmReg a
  | .jeq a => ['J', 'E', 'Q', ' '] ++ asmReg a
  | .jne a => ['J', 'N', 'E', ' '] ++ asmReg a

end Sys2Proof
end

