-- ==== Sys2Proof/Machine/Fetch.lean ====
section
/-! DEFINITION. The fetch unit and the decoder in the cycle (40_execution_cycle R110 to R113), and the placing of an
instruction's bytes where the next step fetches. -/

namespace Sys2Proof.Machine

/-- Why the core has no step in `s`, if it has none (R110): a latched fault, or a cleared running flag. -/
def noStep (s : State) : Option Fault :=
  match s.fault with
  | some r => some (.faultLatched r)
  | none => if s.running then none else some .halted

/-- The fetch latches of one step (R40, R55): the opcode byte and the two operand bytes. -/
structure Latches where
  op : Byte
  a : Byte
  b : Byte
  deriving DecidableEq, Repr

/-- The fetch unit (R111): three reads at pc, pc+1 and pc+2, in every step, in that order; the first address from 256 up
raises `OutOfBounds(memory, address)`. -/
def fetch (s : State) : Except CoreFault Latches := do
  let op ← memRead s (memAddress .fetch0 s)
  let a ← memRead s (memAddress .fetch1 s)
  let b ← memRead s (memAddress .fetch2 s)
  return ⟨op, a, b⟩

/-- Fetch and decode (R111, R113): the instruction at pc, or the fault the fetch unit or the decoder raises. -/
def fetchDecode (m : OpcodeMap) (s : State) : Except CoreFault Instr := do
  let l ← fetch s
  match decode m l.op l.a l.b with
  | .ok i => .ok i
  | .error _ => .error (.illegalInstruction l.op)

/-- Store a byte at an address inside memory; an address outside is left alone. -/
def poke (s : State) (addr : Nat) (v : Byte) : State :=
  if addr < Config.memSize then { s with mem := memSet s.mem addr v } else s

/-- Store the three bytes of an instruction whose bits are `w` at pc, pc+1 and pc+2: the bytes the next step latches. It
stands for the host's load (log 10). -/
def pokeWord (s : State) (nbits w : Nat) : State :=
  poke (poke (poke s s.pc (wordByte nbits w 0)) (s.pc + 1) (wordByte nbits w 1)) (s.pc + 2) (wordByte nbits w 2)

end Sys2Proof.Machine
end

