-- ==== Sys2Proof/Machine/Step.lean ====
section
/-! DEFINITION. One step (40_execution_cycle R119): the gate of R110, fetch and decode, dispatch. `stepWith` takes the
opcode map as an argument, as R9 asks; `step` is the step under the spec's default map (DESIGN CHOICE, log 1). -/

namespace Sys2Proof.Machine

/-- One step of the core with opcode map `m` (R119). -/
def stepWith (m : OpcodeMap) (s : State) : Host.Outcome State Fault Refusal :=
  match noStep s with
  | some f => .fault f
  | none =>
    match fetchDecode m s with
    | .error f => .next (takeFault f s)
    | .ok i => exec i s

/-- One step of the core with the default opcode map of R86. -/
def step (s : State) : Host.Outcome State Fault Refusal := stepWith defaultOpcodeMap s

/-- `s` with the instruction whose bits are `w` stored where `step` fetches its next instruction. -/
def State.withFetchWord (s : State) (nbits w : Nat) : State := pokeWord s nbits w

end Sys2Proof.Machine
end

