-- ==== Sys2Proof/Machine/Boot.lean ====
section
/-! DEFINITION. Boot and loading (70_reset_and_hazards R231, R233, R234; 20_memory R66, R67): the launch state, and the
image file's contract (R235). The loader is outside the core (00_scope R4); only its contract is here. -/

namespace Sys2Proof.Machine

/-- Write the bytes of an image to `addr`, `addr + 1`, ... (R233), each through `MemWrite`: the write of a 257th byte
is refused (R67). -/
def loadBytes (addr : Nat) (img : List Byte) (s : State) : Except CoreFault State :=
  match img with
  | [] => .ok s
  | v :: rest => do
    let t ← memWrite s addr v
    loadBytes (addr + 1) rest t

/-- The launch state of a run (R231): reset, then the image from address 0; or the load's failure, after which no step
runs (R67, R234). -/
def launch (img : List Byte) : Except CoreFault State := loadBytes 0 img State.reset

/-- Why a load fails (R67, R208): a line that is no 8-digit binary literal, by its number from 0, or an image too long
for memory. The core's fault latch records neither. -/
inductive LoadError where
  | malformedProgramLine (line : Nat)
  | outOfBounds (f : CoreFault)
  deriving DecidableEq, Repr

/-- Cut a text at its line feeds. -/
def splitLines : List Char → List (List Char)
  | [] => [[]]
  | c :: rest =>
    if c = '\n' then [] :: splitLines rest
    else
      match splitLines rest with
      | [] => [[c]]
      | l :: ls => (c :: l) :: ls

/-- White space inside a line (DESIGN CHOICE: space, tab and carriage return; log 12). -/
def isBlankChar (c : Char) : Bool := c = ' ' || c = '\t' || c = '\r'

/-- R235: "everything from the first `#` to end of line is stripped". -/
def stripComment (line : List Char) : List Char := line.takeWhile (fun c => c ≠ '#')

/-- The line without white space at its two ends. -/
def trimBlank (line : List Char) : List Char :=
  ((line.dropWhile isBlankChar).reverse.dropWhile isBlankChar).reverse

/-- R59, R235: an 8-character binary literal, its first character bit 7. -/
def binaryLiteral (cs : List Char) : Option Byte :=
  if cs.length = 8 && cs.all (fun c => c = '0' || c = '1') then
    some (BitVec.ofNat 8 (cs.foldl (fun n c => 2 * n + (if c = '1' then 1 else 0)) 0))
  else none

/-- The bytes of the lines from number `n` on: a blank or comment-only line gives none, any other exactly one (R235),
or the load fails (R208). -/
def parseLines (n : Nat) (lines : List (List Char)) : Except LoadError (List Byte) :=
  match lines with
  | [] => .ok []
  | line :: rest =>
    match trimBlank (stripComment line) with
    | [] => parseLines (n + 1) rest
    | tok =>
      match binaryLiteral tok with
      | none => .error (.malformedProgramLine n)
      | some v => do
        let vs ← parseLines (n + 1) rest
        return v :: vs

/-- The image a file's text holds (R235). -/
def parseImage (text : List Char) : Except LoadError (List Byte) := parseLines 0 (splitLines text)

/-- The boot sequence from a file's text (R234): parse, reset, load. -/
def bootText (text : List Char) : Except LoadError State :=
  match parseImage text with
  | .error e => .error e
  | .ok img =>
    match launch img with
    | .ok s => .ok s
    | .error f => .error (.outOfBounds f)

end Sys2Proof.Machine
end

