-- ==== Sys2Proof/Machine/Block.lean ====
section
/-! DEFINITION. The block at its input ports (10_state R41): reset at any time (70 R230), the host's load port before the
first step (R233), and the step request. Whether loading is still open is a bit around the core, not a component of its
state (log 11). -/

namespace Sys2Proof.Machine

/-- The core, and whether the load port is still usable: until the first step after a reset (R233). -/
structure Block where
  core : State
  loading : Bool
  deriving DecidableEq, Repr

/-- `rst` (R230): every component of the state at its reset value, in any state; loading is open again. -/
def blockReset : Block := ⟨State.reset, true⟩

/-- The load port (R41, R54 `LOAD`, R233): one byte at `addr`. `none`: after the first step the host has no move that
writes memory (R210, R233). -/
def blockLoad (b : Block) (addr v : Byte) : Option Block :=
  if b.loading then
    some ⟨{ b.core with mem := memSet b.core.mem (memAddress (.load addr) b.core) v }, true⟩
  else none

/-- The `step` request (R41): one step of the core, which closes the load port. It does not change what a step does
(R210). -/
def blockStep (m : OpcodeMap) (b : Block) : Host.Outcome Block Fault Refusal :=
  match stepWith m b.core with
  | .next t => .next ⟨t, false⟩
  | .fault f => .fault f
  | .refused r => .refused r

end Sys2Proof.Machine
end

