-- ==== Sys2Proof/Machine/Signals.lean ====
section
/-! DEFINITION. The decoder's control signals, the table of 40_execution_cycle R114: for each instruction its length,
format, the registers checked (R118), the ALU kind, the memory access and the pc source. "The architectural effect is
fixed by the handler rules alone": the meanings do not use this table, and a statement says that the two agree. -/

namespace Sys2Proof.Machine

/-- R114's `pc source`: pc plus N, or the value of the register an operand names. -/
inductive PcSource where
  | plus (n : Nat)
  | register (i : Byte)
  deriving DecidableEq, Repr

/-- The signals of one row of R114. -/
structure Signals where
  length : Nat
  format : Format
  checked : List Byte
  aluOp : Option AluKind
  memory : Option MemSource
  pcSource : PcSource
  deriving DecidableEq, Repr

/-- R114's table. `e` is whether E is set, the one thing of the state a row may read. -/
def signals (i : Instr) (e : Bool) : Signals :=
  match i with
  | .hlt => ⟨1, .f1, [], none, none, .plus 1⟩
  | .ldi a _ => ⟨3, .f3ri, [a], none, none, .plus 3⟩
  | .prn a => ⟨2, .f2r, [a], none, none, .plus 2⟩
  | .add a b => ⟨3, .f3rr, [a, b], some .add, none, .plus 3⟩
  | .mul a b => ⟨3, .f3rr, [a, b], some .mul, none, .plus 3⟩
  | .push a => ⟨2, .f2r, [a], none, some .stackW, .plus 2⟩
  | .pop a => ⟨2, .f2r, [a], none, some .stackR, .plus 2⟩
  | .cmp a b => ⟨3, .f3rr, [a, b], some .cmp, none, .plus 3⟩
  | .jmp a => ⟨2, .f2r, [a], none, none, .register a⟩
  | .jeq a => if e then ⟨2, .f2r, [a], none, none, .register a⟩ else ⟨2, .f2r, [], none, none, .plus 2⟩
  | .jne a => if e then ⟨2, .f2r, [], none, none, .plus 2⟩ else ⟨2, .f2r, [a], none, none, .register a⟩

/-- The first checked register operand that is no valid index (R118: `a` before `b`), if there is one. -/
def firstInvalid (i : Instr) (e : Bool) : Option Byte :=
  (signals i e).checked.find? (fun r => !validReg r)

end Sys2Proof.Machine
end

