-- ==== Sys2Proof/Machine/Observe.lean ====
section
/-! DEFINITION. What the host sees: the output ports (10_state R41), the fault latch's hardware encoding (60_exceptions
R201), the output text (41_data_movement R143), the end of a run (40 R125) and the observation of a run (10_state R42).
Nothing here changes the state. -/

namespace Sys2Proof.Machine

/-- R201: the code of an ALU kind, the `fault_info` of `UnsupportedAluOp`. -/
def aluKindCode : AluKind → Nat
  | .add => 0
  | .mul => 1
  | .cmp => 2
  | .sub => 3
  | .and => 4
  | .or => 5
  | .xor => 6
  | .other => 7

/-- R201: `fault_code[2:0]` of a latched cause; 0 stands for none. -/
def faultCode : Option FaultRecord → BitVec 3
  | none => 0#3
  | some ⟨.outOfBoundsMemory _, _⟩ => 1#3
  | some ⟨.outOfBoundsRegister _, _⟩ => 2#3
  | some ⟨.illegalInstruction _, _⟩ => 3#3
  | some ⟨.unsupportedAluOp _, _⟩ => 4#3

/-- R201: `fault_info[8:0]`. -/
def faultInfo : Option FaultRecord → BitVec 9
  | none => 0#9
  | some ⟨.outOfBoundsMemory addr, _⟩ => BitVec.ofNat 9 addr
  | some ⟨.outOfBoundsRegister i, _⟩ => i.setWidth 9
  | some ⟨.illegalInstruction op, _⟩ => op.setWidth 9
  | some ⟨.unsupportedAluOp k, _⟩ => BitVec.ofNat 9 (aluKindCode k)

/-- R41: `fault_pc[8:0]`, the pc of the faulting step; 0 with no fault latched (log 18). -/
def faultPc : Option FaultRecord → BitVec 9
  | none => 0#9
  | some r => BitVec.ofNat 9 r.pc

/-- The output ports that show the state (R41). -/
structure Ports where
  running : Bool
  faultValid : Bool
  faultCode : BitVec 3
  faultInfo : BitVec 9
  faultPc : BitVec 9
  pc : Nat
  deriving DecidableEq, Repr

/-- The output ports in a state (R41). -/
def ports (s : State) : Ports :=
  ⟨s.running, s.fault.isSome, faultCode s.fault, faultInfo s.fault, faultPc s.fault, s.pc⟩

/-- `out_valid` and `out_data` of the step from `s` to `t`: the value the step appended to `out`, if it appended one
(R41, R143). -/
def outPort (s t : State) : Option Byte := t.out[s.out.length]?

/-- The text of an output sequence: the decimal form of each value and a line feed (R143). -/
def outText (out : List Byte) : List Char := out.flatMap (fun v => decimal v ++ ['\n'])

/-- The two ways a run ends (R125). -/
inductive RunEnd where
  | halted
  | faulted (r : FaultRecord)
  deriving DecidableEq, Repr

/-- How the run has ended in `s` (R15, R125): a latched fault, or a cleared running flag with none; else it has not. -/
def endOf (s : State) : Option RunEnd :=
  match s.fault with
  | some r => some (.faulted r)
  | none => if s.running then none else some .halted

/-- R41, R204: whether the host's exit status is 0 (halted) or non-zero (faulted); none while the run goes on. -/
def exitZero (s : State) : Option Bool :=
  (endOf s).map (fun e => e == .halted)

/-- The observation of a run (R42). -/
structure Observation where
  ended : Option RunEnd
  out : List Byte
  x : Vector Byte 8
  pc : Nat
  fl : Flags
  mem : List Host.Cell
  deriving DecidableEq, Repr

/-- What is observed in the state a run ended in (R42). -/
def observe (s : State) : Observation := ⟨endOf s, s.out, s.x, s.pc, s.fl, s.mem⟩

end Sys2Proof.Machine
end

