-- ==== Sys2Proof/Safety.lean ====
section
/-! DEFINITION. What claims about runs are stated in: a run of k steps, a clean end, a faulted end (40_execution_cycle
R125, R126), and the invariant of the machine, the facts the spec gives for every state a run reaches. -/

namespace Sys2Proof.Machine

/-- `k` steps from `s`, or none where the core has no step before that (R110, R125). -/
def runWith (m : OpcodeMap) : Nat → State → Option State
  | 0, s => some s
  | k + 1, s =>
    match stepWith m s with
    | .next t => runWith m k t
    | .fault _ => none
    | .refused _ => none

/-- A safe run of `k` steps: all of them happen and no fault is latched (R126: a faulted run is no successful end). -/
def SafeRun (m : OpcodeMap) (k : Nat) (s : State) : Prop :=
  ∃ t, runWith m k s = some t ∧ t.fault = none

/-- The run from `s` halts in `t` after `k` steps, with no fault (R125, R126). -/
def HaltsIn (m : OpcodeMap) (k : Nat) (s t : State) : Prop :=
  runWith m k s = some t ∧ endOf t = some .halted

/-- The run from `s` ends in `t` with the fault record `r` latched (R125). -/
def FaultsIn (m : OpcodeMap) (k : Nat) (s t : State) (r : FaultRecord) : Prop :=
  runWith m k s = some t ∧ endOf t = some (.faulted r)

/-- What a latched record may say (R53, R90, R152, R201): a memory fault records 256, a register fault an index from 8
up, an illegal instruction a byte outside the map; an unsupported ALU kind is never latched. -/
def legalCause (m : OpcodeMap) : CoreFault → Prop
  | .outOfBoundsMemory addr => addr = 256
  | .outOfBoundsRegister i => 8 ≤ i.toNat
  | .illegalInstruction op => ∀ k, m.byte k ≠ op
  | .unsupportedAluOp _ => False

/-- The invariant of the machine: memory is in canonical form, pc is in 0..256 (R30), exactly one flag is set (R31, R33,
R34), and a latched fault has a legal cause, the pc the core stopped at, and leaves `running` true (R203, R206). -/
def Inv (m : OpcodeMap) (s : State) : Prop :=
  Memory.wf s.mem = true ∧ s.pc ≤ 256 ∧ s.fl ≠ .clear ∧
  ∀ r, s.fault = some r → legalCause m r.cause ∧ r.pc = s.pc ∧ s.running = true

/-- An instruction's encoding bullet (R81, R82, R86): its format, its length, its default opcode byte (general knowledge
by the spec's own mark; log 20), and that, under every opcode map, its opcode byte with any two operand bytes decodes to
`i a b`. An `i` that drops an operand says that the decoder ignores that byte (R91). -/
def EncodedAs (k : Mnemonic) (f : Format) (n : Nat) (op : Byte) (i : Byte → Byte → Instr) : Prop :=
  formatOf k = f ∧ lengthOf k = n ∧ defaultOpcodeMap.byte k = op ∧
  ∀ (m : OpcodeMap) (a b : Byte), decode m (m.byte k) a b = .ok (i a b)

end Sys2Proof.Machine
end

