-- ==== Sys2Proof/Certificates/Slice0/Obligations.lean ====
section
/-! DEFINITION. The statements for the provers. Each docstring names the rules of spec/ it formalises, or the spec's own
decision (D<n> of 92_eei_decisions.md) it rests on. Unless it says otherwise a statement is about EVERY opcode map
(00_scope R9) and every state. -/

open Sys2Proof Sys2Proof.Machine

/-! ### Encoding -/

/-- Decoding the encoding of any instruction gives it back with every operand, whatever bytes follow: as a byte string,
and as the three bytes the fetch unit latches (30_encoding sections 1 to 5). -/
def Obligations.DecodeOfEncodeIsTheInstruction : Prop :=
  ∀ (m : OpcodeMap) (i : Instr),
    (∀ rest, decodeStream m (encode m i ++ rest) = .ok (i, rest)) ∧
    (∀ p q r, decode m ((encode m i).getD 0 p) ((encode m i).getD 1 q) ((encode m i).getD 2 r) = .ok i)

/-- Every byte string that decodes is the encoding of what it decodes to, and the rest: a word has one meaning
(30_encoding sections 1 to 5). -/
def Obligations.DecodedBytesAreTheEncoding : Prop :=
  ∀ (m : OpcodeMap) (bs rest : List Byte) (i : Instr),
    decodeStream m bs = .ok (i, rest) → encode m i ++ rest = bs

/-- Words of the default map written out bit by bit from R86's table and R81's formats, one for every instruction. The
opcode bytes are general knowledge by the spec's own mark (log 20). -/
def Obligations.WordsOfTheTableDecode : Prop :=
  decode defaultOpcodeMap 0b00000001#8 0xFF#8 0xFF#8 = .ok .hlt ∧
  decode defaultOpcodeMap 0b10000010#8 0x03#8 0x2A#8 = .ok (.ldi 3#8 42#8) ∧
  decode defaultOpcodeMap 0b01000111#8 0x06#8 0xFF#8 = .ok (.prn 6#8) ∧
  decode defaultOpcodeMap 0b10100000#8 0x00#8 0x01#8 = .ok (.add 0#8 1#8) ∧
  decode defaultOpcodeMap 0b10100010#8 0x02#8 0x05#8 = .ok (.mul 2#8 5#8) ∧
  decode defaultOpcodeMap 0b01000101#8 0x07#8 0x00#8 = .ok (.push 7#8) ∧
  decode defaultOpcodeMap 0b01000110#8 0x04#8 0x00#8 = .ok (.pop 4#8) ∧
  decode defaultOpcodeMap 0b10100111#8 0x00#8 0xC8#8 = .ok (.cmp 0#8 200#8) ∧
  decode defaultOpcodeMap 0b01010100#8 0x04#8 0x00#8 = .ok (.jmp 4#8) ∧
  decode defaultOpcodeMap 0b01010101#8 0x09#8 0x00#8 = .ok (.jeq 9#8) ∧
  decode defaultOpcodeMap 0b01010110#8 0x03#8 0x00#8 = .ok (.jne 3#8)

/-- R91: the bytes a format does not use are ignored (bytes 1 and 2 of F1, byte 2 of F2R), and no operand value is
reserved. -/
def Obligations.UnusedOperandBytesAreIgnored : Prop :=
  ∀ (m : OpcodeMap) (k : Mnemonic) (a b a' b' : Byte),
    (formatOf k = .f1 → decode m (m.byte k) a b = decode m (m.byte k) a' b') ∧
    (formatOf k = .f2r → decode m (m.byte k) a b = decode m (m.byte k) a b') ∧
    (∃ i, decode m (m.byte k) a b = .ok i)

/-- R90 and R113: fetching a byte outside the map raises IllegalInstruction(op, pc) and leaves everything else as it
was; otherwise the handler of the instruction the byte names runs on the latched operand bytes. Under the default map
245 of the 256 bytes are illegal, 0x00 and R90's list of other LS-8 opcodes among them (that list is general knowledge
by the spec's own mark). -/
def Obligations.IllegalOpcodesFaultOthersDispatch : Prop :=
  (∀ (m : OpcodeMap) (s : State), s.running = true → s.fault = none → s.pc + 2 < 256 →
    ((∀ k, m.byte k ≠ memGet s.mem s.pc) →
      stepWith m s = .next { s with fault := some ⟨.illegalInstruction (memGet s.mem s.pc), s.pc⟩ }) ∧
    (∀ k, m.byte k = memGet s.mem s.pc →
      stepWith m s = exec (build k (memGet s.mem (s.pc + 1)) (memGet s.mem (s.pc + 2))) s)) ∧
  ((List.range 256).countP (fun n => (lookupOpcode defaultOpcodeMap (BitVec.ofNat 8 n)).isNone)) = 245 ∧
  (∀ op ∈ [0x00#8, 0xA1#8, 0xA3#8, 0xA4#8, 0xA8#8, 0xAA#8, 0xAB#8, 0x69#8, 0xAC#8, 0xAD#8, 0x65#8, 0x66#8, 0x50#8,
      0x11#8, 0x52#8, 0x13#8, 0x57#8, 0x58#8, 0x59#8, 0x5A#8, 0x83#8, 0x84#8, 0x48#8],
    lookupOpcode defaultOpcodeMap op = none)

/-- 30_encoding section 3 on the default map's bit structure (general knowledge by the spec's own mark; log 20): the
length is op[7:6] + 1, op[5] is set exactly for ADD, MUL and CMP, and op[4] exactly for JMP, JEQ and JNE. -/
def Obligations.DefaultOpcodeBitStructure : Prop :=
  ∀ k : Mnemonic,
    lengthOf k = (defaultOpcode k).toNat / 64 + 1 ∧
    ((defaultOpcode k).getLsbD 5 = true ↔ k = .add ∨ k = .mul ∨ k = .cmp) ∧
    ((defaultOpcode k).getLsbD 4 = true ↔ k = .jmp ∨ k = .jeq ∨ k = .jne)

/-! ### The execution cycle -/

/-- 40_execution_cycle section 7: where the core may step and the three bytes at pc decode to `i`, the step is `exec` of
`i` at that state, with nothing around it; `step` is the step under the default map (log 1). -/
def Obligations.StepRunsTheDecodedInstruction : Prop :=
  (∀ (m : OpcodeMap) (s : State) (i : Instr), s.running = true → s.fault = none → s.pc + 2 < 256 →
    decode m (memGet s.mem s.pc) (memGet s.mem (s.pc + 1)) (memGet s.mem (s.pc + 2)) = .ok i →
    stepWith m s = exec i s) ∧
  (∀ s, step s = stepWith defaultOpcodeMap s)

/-- R111: three bytes are read in every step; the first of pc, pc+1, pc+2 that is 256 or more raises
OutOfBounds(memory, address), and the step does nothing else. -/
def Obligations.FetchReadsThreeBytesInEveryStep : Prop :=
  ∀ s : State,
    (s.pc + 2 < 256 →
      fetch s = .ok ⟨memGet s.mem s.pc, memGet s.mem (s.pc + 1), memGet s.mem (s.pc + 2)⟩) ∧
    (256 ≤ s.pc → fetch s = .error (.outOfBoundsMemory s.pc)) ∧
    (s.pc < 256 → 256 ≤ s.pc + 1 → fetch s = .error (.outOfBoundsMemory (s.pc + 1))) ∧
    (s.pc + 1 < 256 → 256 ≤ s.pc + 2 → fetch s = .error (.outOfBoundsMemory (s.pc + 2))) ∧
    (∀ (m : OpcodeMap) (f : CoreFault), s.running = true → s.fault = none → fetch s = .error f →
      stepWith m s = .next { s with fault := some ⟨f, s.pc⟩ })

/-- 40_execution_cycle section 2 (an inference the spec marks as derived): no instruction executes with its opcode at
254 or 255; the bound check comes before the opcode is examined. -/
def Obligations.NoInstructionExecutesAt254Or255 : Prop :=
  ∀ (m : OpcodeMap) (s : State), s.running = true → s.fault = none → (s.pc = 254 ∨ s.pc = 255) →
    stepWith m s = .next { s with fault := some ⟨.outOfBoundsMemory 256, s.pc⟩ }

/-- 40_execution_cycle section 1: a step is possible exactly when `running = true` and `fault = none`; in any other state
there is none. That the model says so by the named answers `faultLatched r` and `halted` is the model's own choice
(log 4, DESIGN CHOICE), not the spec's. -/
def Obligations.StepIsPossibleExactlyWhenRunning : Prop :=
  ∀ (m : OpcodeMap) (s : State),
    ((∃ t, stepWith m s = .next t) ↔ (s.running = true ∧ s.fault = none)) ∧
    (∀ r, s.fault = some r → stepWith m s = .fault (.faultLatched r)) ∧
    (s.fault = none → s.running = false → stepWith m s = .fault .halted)

/-- 60_exceptions section 2 (the spec's own decision D12 orders `a` before `b`): a step latches the first fault that
applies, in the order of the fetch addresses, the opcode, the register operands the instruction uses; and none where
none applies. -/
def Obligations.StepLatchesTheFirstFaultThatApplies : Prop :=
  ∀ (m : OpcodeMap) (s : State), s.running = true → s.fault = none →
    ∃ t, stepWith m s = .next t ∧
      t.fault =
        if 256 ≤ s.pc then some ⟨.outOfBoundsMemory s.pc, s.pc⟩
        else if 256 ≤ s.pc + 1 then some ⟨.outOfBoundsMemory (s.pc + 1), s.pc⟩
        else if 256 ≤ s.pc + 2 then some ⟨.outOfBoundsMemory (s.pc + 2), s.pc⟩
        else match lookupOpcode m (memGet s.mem s.pc) with
          | none => some ⟨.illegalInstruction (memGet s.mem s.pc), s.pc⟩
          | some k =>
            match firstInvalid (build k (memGet s.mem (s.pc + 1)) (memGet s.mem (s.pc + 2))) (eSet s) with
            | some r => some ⟨.outOfBoundsRegister r, s.pc⟩
            | none => none

/-- 40_execution_cycle section 5 (the spec's own decision D9): faults are precise. A step that latches a fault changes
nothing but the latch, and the record's pc is the pc of the step. -/
def Obligations.FaultingStepChangesOnlyTheLatch : Prop :=
  ∀ (m : OpcodeMap) (s t : State), stepWith m s = .next t → t.fault ≠ none →
    t = { s with fault := t.fault } ∧ ∃ c, t.fault = some ⟨c, s.pc⟩

/-- 40_execution_cycle section 3's table of control signals (the spec's own decision D14), every column of it: length
and format are the encoding's; the first invalid checked register is the fault taken; otherwise the instruction
completes, its pc is the pc source's, and the memory and ALU columns are what it does. STACK_W is PUSH's alone: the
register, read after the decrement, is stored at the decremented SP. STACK_R is POP's alone: the byte at SP goes to the
register, then SP is incremented. No memory access means that memory is neither read nor written. The ALU kinds are
ADD's, MUL's and CMP's alone: the outputs of the ALU for that kind are what the instruction writes, and without a kind
FL is unchanged. -/
def Obligations.ControlSignalsDescribeEveryInstruction : Prop :=
  ∀ (i : Instr) (s : State),
    (signals i (eSet s)).length = lengthOf i.mnemonic ∧
    (signals i (eSet s)).format = formatOf i.mnemonic ∧
    ((signals i (eSet s)).memory = some .stackW ↔ ∃ a, i = .push a) ∧
    ((signals i (eSet s)).memory = some .stackR ↔ ∃ a, i = .pop a) ∧
    (∀ src, (signals i (eSet s)).memory = some src → src = .stackW ∨ src = .stackR) ∧
    ((signals i (eSet s)).aluOp = some .add ↔ ∃ a b, i = .add a b) ∧
    ((signals i (eSet s)).aluOp = some .mul ↔ ∃ a b, i = .mul a b) ∧
    ((signals i (eSet s)).aluOp = some .cmp ↔ ∃ a b, i = .cmp a b) ∧
    (∀ k, (signals i (eSet s)).aluOp = some k → k = .add ∨ k = .mul ∨ k = .cmp) ∧
    (∀ r, firstInvalid i (eSet s) = some r →
      exec i s = .next { s with fault := some ⟨.outOfBoundsRegister r, s.pc⟩ }) ∧
    (firstInvalid i (eSet s) = none →
      ∃ t, exec i s = .next t ∧ t.fault = s.fault ∧
        (∀ n, (signals i (eSet s)).pcSource = .plus n → t.pc = s.pc + n) ∧
        (∀ r, (signals i (eSet s)).pcSource = .register r → ∃ h : r.toNat < 8, t.pc = (s.x[r.toNat]).toNat) ∧
        ((signals i (eSet s)).memory = some .stackW →
          let s1 := setSp s (s.x[7] - 1#8)
          memAddress .stackW s1 = (s.x[7] - 1#8).toNat ∧
          ∃ a v, (signals i (eSet s)).checked = [a] ∧ readReg s1 a = .ok v ∧
            t.mem = memSet s.mem (memAddress .stackW s1) v ∧ t.x = s1.x) ∧
        ((signals i (eSet s)).memory = some .stackR →
          memAddress .stackR s = (s.x[7]).toNat ∧
          ∃ a s1, (signals i (eSet s)).checked = [a] ∧
            writeReg s a (memGet s.mem (memAddress .stackR s)) = .ok s1 ∧
            t.x = s1.x.set 7 (s1.x[7] + 1#8) ∧ t.mem = s.mem) ∧
        ((signals i (eSet s)).memory = none →
          t.mem = s.mem ∧ ∀ mem, exec i { s with mem := mem } = .next { t with mem := mem }) ∧
        (∀ k, (signals i (eSet s)).aluOp = some k →
          ∃ a b p q o, (signals i (eSet s)).checked = [a, b] ∧ readReg s a = .ok p ∧ readReg s b = .ok q ∧
            alu k p q = .ok o ∧ (∀ v, o.res = some v → writeReg s a v = .ok { s with x := t.x }) ∧
            (o.res = none → t.x = s.x) ∧ t.fl = o.fl.getD s.fl) ∧
        ((signals i (eSet s)).aluOp = none → t.fl = s.fl))

/-! ### Data movement -/

/-- R140: LDI writes the whole immediate byte to x[a] and changes nothing else; a register byte from 8 up faults and
writes nothing; the immediate is never checked as a register. -/
def Obligations.LdiLoadsTheImmediate : Prop :=
  EncodedAs .ldi .f3ri 3 0x82#8 .ldi ∧
  ∀ (a b : Byte) (s : State),
    (∀ _ha : a.toNat < 8, exec (.ldi a b) s = .next { s with x := s.x.set a.toNat b, pc := s.pc + 3 }) ∧
    (8 ≤ a.toNat → exec (.ldi a b) s = .next { s with fault := some ⟨.outOfBoundsRegister a, s.pc⟩ })

/-- R142: PRN appends x[a] to the output sequence and changes nothing else but pc; a register byte from 8 up faults and
no value is emitted. -/
def Obligations.PrnEmitsTheRegister : Prop :=
  EncodedAs .prn .f2r 2 0x47#8 (fun a _ => .prn a) ∧
  ∀ (a : Byte) (s : State),
    (∀ _ha : a.toNat < 8, exec (.prn a) s = .next { s with out := s.out ++ [s.x[a.toNat]], pc := s.pc + 2 }) ∧
    (8 ≤ a.toNat → exec (.prn a) s = .next { s with fault := some ⟨.outOfBoundsRegister a, s.pc⟩ })

/-! ### The ALU -/

/-- R154: ADD writes (x[a] + x[b]) mod 256 to x[a], leaves FL and all else as it was; a bad `a` is reported before a
bad `b`. -/
def Obligations.AddWrapsModulo256 : Prop :=
  EncodedAs .add .f3rr 3 0xA0#8 .add ∧
  ∀ (a b : Byte) (s : State),
    (∀ (_ha : a.toNat < 8) (_hb : b.toNat < 8),
      exec (.add a b) s = .next { s with
        x := s.x.set a.toNat (BitVec.ofNat 8 (((s.x[a.toNat]).toNat + (s.x[b.toNat]).toNat) % 256)),
        pc := s.pc + 3 }) ∧
    (8 ≤ a.toNat → exec (.add a b) s = .next { s with fault := some ⟨.outOfBoundsRegister a, s.pc⟩ }) ∧
    (a.toNat < 8 → 8 ≤ b.toNat →
      exec (.add a b) s = .next { s with fault := some ⟨.outOfBoundsRegister b, s.pc⟩ })

/-- R156: MUL writes (x[a] * x[b]) mod 256 to x[a], leaves FL and all else as it was; a bad `a` is reported before a
bad `b`. -/
def Obligations.MulKeepsTheLowByte : Prop :=
  EncodedAs .mul .f3rr 3 0xA2#8 .mul ∧
  ∀ (a b : Byte) (s : State),
    (∀ (_ha : a.toNat < 8) (_hb : b.toNat < 8),
      exec (.mul a b) s = .next { s with
        x := s.x.set a.toNat (BitVec.ofNat 8 (((s.x[a.toNat]).toNat * (s.x[b.toNat]).toNat) % 256)),
        pc := s.pc + 3 }) ∧
    (8 ≤ a.toNat → exec (.mul a b) s = .next { s with fault := some ⟨.outOfBoundsRegister a, s.pc⟩ }) ∧
    (a.toNat < 8 → 8 ≤ b.toNat →
      exec (.mul a b) s = .next { s with fault := some ⟨.outOfBoundsRegister b, s.pc⟩ })

/-- R158: CMP sets FL to L, G or E by the unsigned order of x[a] and x[b], writes no register, and changes nothing else
but pc; a bad `a` is reported before a bad `b`, and FL is then unchanged. -/
def Obligations.CmpSetsFlagsByUnsignedOrder : Prop :=
  EncodedAs .cmp .f3rr 3 0xA7#8 .cmp ∧
  ∀ (a b : Byte) (s : State),
    (∀ (_ha : a.toNat < 8) (_hb : b.toNat < 8),
      exec (.cmp a b) s = .next { s with
        fl := if (s.x[a.toNat]).toNat < (s.x[b.toNat]).toNat then .less
              else if (s.x[a.toNat]).toNat > (s.x[b.toNat]).toNat then .greater
              else .equal,
        pc := s.pc + 3 }) ∧
    (8 ≤ a.toNat → exec (.cmp a b) s = .next { s with fault := some ⟨.outOfBoundsRegister a, s.pc⟩ }) ∧
    (a.toNat < 8 → 8 ≤ b.toNat →
      exec (.cmp a b) s = .next { s with fault := some ⟨.outOfBoundsRegister b, s.pc⟩ })

/-- R151: the ALU's functions for each kind, through the body every ALU instruction shares and the pc sequencer: ADD
and MUL write x[a] and not FL, CMP writes FL and no result, and any other kind raises UnsupportedAluOp(k) and writes
nothing. -/
def Obligations.AluFunctionsForEveryKind : Prop :=
  ∀ (a b : Byte) (s : State) (_ha : a.toNat < 8) (_hb : b.toNat < 8),
    sequencePc s (aluInstr .add a b s) = .next { s with
      x := s.x.set a.toNat (BitVec.ofNat 8 (((s.x[a.toNat]).toNat + (s.x[b.toNat]).toNat) % 256)), pc := s.pc + 3 } ∧
    sequencePc s (aluInstr .mul a b s) = .next { s with
      x := s.x.set a.toNat (BitVec.ofNat 8 (((s.x[a.toNat]).toNat * (s.x[b.toNat]).toNat) % 256)), pc := s.pc + 3 } ∧
    sequencePc s (aluInstr .cmp a b s) = .next { s with
      fl := if (s.x[a.toNat]).toNat < (s.x[b.toNat]).toNat then .less
            else if (s.x[a.toNat]).toNat > (s.x[b.toNat]).toNat then .greater
            else .equal,
      pc := s.pc + 3 } ∧
    (∀ k, k ≠ .add → k ≠ .mul → k ≠ .cmp →
      sequencePc s (aluInstr k a b s) = .next { s with fault := some ⟨.unsupportedAluOp k, s.pc⟩ })

/-- 42_alu section 1 (an inference the spec marks as derived): no step latches UnsupportedAluOp, from any state. -/
def Obligations.UnsupportedAluOpIsNeverLatched : Prop :=
  ∀ (m : OpcodeMap) (s t : State), stepWith m s = .next t →
    ∀ r, t.fault = some r → ∀ k, r.cause ≠ .unsupportedAluOp k

/-! ### The stack -/

/-- R170: PUSH decrements SP (0 wraps to 255), then stores x[a], read after the decrement, at the new SP; nothing else
changes but pc. A register byte from 8 up faults, and the decrement is discarded. -/
def Obligations.PushDecrementsThenStores : Prop :=
  EncodedAs .push .f2r 2 0x45#8 (fun a _ => .push a) ∧
  ∀ (a : Byte) (s : State),
    (∀ _ha : a.toNat < 8,
      let x1 := s.x.set 7 (BitVec.ofNat 8 (((s.x[7]).toNat + 255) % 256))
      exec (.push a) s = .next { s with
        x := x1, mem := memSet s.mem (x1[7]).toNat (x1[a.toNat]), pc := s.pc + 2 }) ∧
    (8 ≤ a.toNat → exec (.push a) s = .next { s with fault := some ⟨.outOfBoundsRegister a, s.pc⟩ })

/-- R172: POP writes the byte at SP to x[a], then increments x[7] (255 wraps to 0), read after that write; memory keeps
the byte, and nothing else changes but pc. A register byte from 8 up faults, and SP and all registers are unchanged. -/
def Obligations.PopLoadsThenIncrements : Prop :=
  EncodedAs .pop .f2r 2 0x46#8 (fun a _ => .pop a) ∧
  ∀ (a : Byte) (s : State),
    (∀ _ha : a.toNat < 8,
      let x1 := s.x.set a.toNat (memGet s.mem (s.x[7]).toNat)
      exec (.pop a) s = .next { s with
        x := x1.set 7 (BitVec.ofNat 8 (((x1[7]).toNat + 1) % 256)), pc := s.pc + 2 }) ∧
    (8 ≤ a.toNat → exec (.pop a) s = .next { s with fault := some ⟨.outOfBoundsRegister a, s.pc⟩ })

/-- 43_stack (an inference the spec marks as derived): PUSH then POP of the same register, R7 too, leaves every register
as it was and the pushed byte in memory at the old SP - 1. -/
def Obligations.PushThenPopRoundTrips : Prop :=
  ∀ (a : Byte) (s : State), a.toNat < 8 →
    ∃ t u, exec (.push a) s = .next t ∧ exec (.pop a) t = .next u ∧
      u.x = s.x ∧ u.mem = t.mem ∧ u.pc = s.pc + 4 ∧ u.fl = s.fl ∧ u.out = s.out ∧
      ∃ v, readReg t a = .ok v ∧ memGet u.mem ((s.x[7]) - 1#8).toNat = v

/-- 43_stack (an inference the spec marks as derived): PUSH R7 stores the decremented SP; POP R7 leaves the popped byte
plus 1 in SP. -/
def Obligations.StackPointerAsStackOperand : Prop :=
  (∀ s, ∃ t, exec (.push 7#8) s = .next t ∧ t.x[7] = s.x[7] - 1#8 ∧
    memGet t.mem ((s.x[7]) - 1#8).toNat = s.x[7] - 1#8) ∧
  (∀ s, ∃ t, exec (.pop 7#8) s = .next t ∧ t.x[7] = memGet s.mem (s.x[7]).toNat + 1#8)

/-- 20_memory section 6 (the spec's own decision D17): a byte PUSH stores is what every later fetch of its address
reads, opcode or operand, wherever it lies, with no other step between that writes it. The pushing step itself used the
bytes memory held before. -/
def Obligations.FetchSeesPushedBytes : Prop :=
  ∀ (m : OpcodeMap) (s : State) (a : Byte), s.running = true → s.fault = none → s.pc + 2 < 256 →
    memGet s.mem s.pc = m.byte .push → memGet s.mem (s.pc + 1) = a → ∀ _ha : a.toNat < 8,
    let v := (s.x.set 7 (s.x[7] - 1#8))[a.toNat]
    ∃ t, stepWith m s = .next t ∧
      ∀ (u : State) (l : Latches), u.mem = t.mem → fetch u = .ok l →
        (u.pc = (s.x[7] - 1#8).toNat → l.op = v) ∧
        (u.pc + 1 = (s.x[7] - 1#8).toNat → l.a = v) ∧
        (u.pc + 2 = (s.x[7] - 1#8).toNat → l.b = v)

/-! ### Control -/

/-- 44_control HLT (pc + 1 is the spec's own decision D13): HLT clears `running`, adds 1 to pc, and changes nothing
else. -/
def Obligations.HltClearsRunning : Prop :=
  EncodedAs .hlt .f1 1 0x01#8 (fun _ _ => .hlt) ∧
  ∀ s : State, exec .hlt s = .next { s with running := false, pc := s.pc + 1 }

/-- R182: JMP sets pc to x[a], an absolute address, and changes nothing else; the jump itself never faults, but a target
of 254 or 255 makes the next step fault. A register byte from 8 up faults. -/
def Obligations.JmpSetsPcToTheRegister : Prop :=
  EncodedAs .jmp .f2r 2 0x54#8 (fun a _ => .jmp a) ∧
  ∀ (a : Byte) (s : State),
    (∀ _ha : a.toNat < 8,
      exec (.jmp a) s = .next { s with pc := (s.x[a.toNat]).toNat } ∧
      (254 ≤ (s.x[a.toNat]).toNat → s.running = true → s.fault = none → ∀ m,
        stepWith m { s with pc := (s.x[a.toNat]).toNat } =
          .next { s with pc := (s.x[a.toNat]).toNat,
                         fault := some ⟨.outOfBoundsMemory 256, (s.x[a.toNat]).toNat⟩ })) ∧
    (8 ≤ a.toNat → exec (.jmp a) s = .next { s with fault := some ⟨.outOfBoundsRegister a, s.pc⟩ })

/-- 44_control JEQ (that an untaken JEQ checks no register is the spec's own decision D11): with E set, pc becomes x[a]
or a register byte from 8 up faults; with E clear, pc advances by 2 whatever the operand. Nothing else changes. -/
def Obligations.JeqIsTakenExactlyOnEqual : Prop :=
  EncodedAs .jeq .f2r 2 0x55#8 (fun a _ => .jeq a) ∧
  ∀ (a : Byte) (s : State),
    (s.fl = .equal → ∀ _ha : a.toNat < 8, exec (.jeq a) s = .next { s with pc := (s.x[a.toNat]).toNat }) ∧
    (s.fl = .equal → 8 ≤ a.toNat →
      exec (.jeq a) s = .next { s with fault := some ⟨.outOfBoundsRegister a, s.pc⟩ }) ∧
    (s.fl ≠ .equal → exec (.jeq a) s = .next { s with pc := s.pc + 2 })

/-- 44_control JNE (that an untaken JNE checks no register is the spec's own decision D11): with E clear, pc becomes
x[a] or a register byte from 8 up faults; with E set, pc advances by 2 whatever the operand. Nothing else changes. -/
def Obligations.JneIsTakenExactlyOnUnequal : Prop :=
  EncodedAs .jne .f2r 2 0x56#8 (fun a _ => .jne a) ∧
  ∀ (a : Byte) (s : State),
    (s.fl ≠ .equal → ∀ _ha : a.toNat < 8, exec (.jne a) s = .next { s with pc := (s.x[a.toNat]).toNat }) ∧
    (s.fl ≠ .equal → 8 ≤ a.toNat →
      exec (.jne a) s = .next { s with fault := some ⟨.outOfBoundsRegister a, s.pc⟩ }) ∧
    (s.fl = .equal → exec (.jne a) s = .next { s with pc := s.pc + 2 })

/-- 44_control on the branches after a compare (that exactly one of JEQ and JNE is taken is an inference the spec marks
as derived): after CMP Ra,Rb, JEQ Rr goes to x[r] exactly when x[a] = x[b], JNE Rr exactly when not, and each advances
by 2 otherwise. -/
def Obligations.BranchesFollowTheLastCompare : Prop :=
  ∀ (a b r : Byte) (s : State) (_ha : a.toNat < 8) (_hb : b.toNat < 8) (_hr : r.toNat < 8),
    ∃ t u v, exec (.cmp a b) s = .next t ∧ exec (.jeq r) t = .next u ∧ exec (.jne r) t = .next v ∧
      (s.x[a.toNat] = s.x[b.toNat] → u.pc = (s.x[r.toNat]).toNat ∧ v.pc = s.pc + 5) ∧
      (s.x[a.toNat] ≠ s.x[b.toNat] → u.pc = s.pc + 5 ∧ v.pc = (s.x[r.toNat]).toNat)

/-! ### Frames: what each instruction leaves unchanged -/

/-- The register frame (10_state section 1 on who writes a register, which the spec marks as derived): a register
changes only if it is the destination of LDI, ADD or MUL, SP under PUSH, or the destination or SP under POP. -/
def Obligations.RegistersChangeOnlyAsDestinations : Prop :=
  ∀ (i : Instr) (s t : State) (r : Fin 8), exec i s = .next t →
    (match i with
      | .hlt => True
      | .ldi a _ => r.val ≠ a.toNat
      | .prn _ => True
      | .add a _ => r.val ≠ a.toNat
      | .mul a _ => r.val ≠ a.toNat
      | .push _ => r.val ≠ 7
      | .pop a => r.val ≠ a.toNat ∧ r.val ≠ 7
      | .cmp _ _ => True
      | .jmp _ => True
      | .jeq _ => True
      | .jne _ => True) →
    t.x[r] = s.x[r]

/-- The memory frame (20_memory section 1): only PUSH writes memory, one byte, at the address STACK_W gives after the
decrement; every other byte, and every byte under the other ten instructions, reads as before. -/
def Obligations.OnlyPushWritesMemory : Prop :=
  ∀ (i : Instr) (s t : State) (addr : Nat), exec i s = .next t →
    ((∃ a, i = .push a) → addr ≠ memAddress .stackW (setSp s (sub8 (sp s) 1#8))) →
    memGet t.mem addr = memGet s.mem addr

/-- The frame of the other components (10_state sections 3 to 6): only CMP changes FL, only HLT changes `running`, only
PRN changes the output, and the fault latch changes only by a register fault recorded at the pc of the instruction,
after which nothing else has changed (the spec's own decision D9). -/
def Obligations.FlagsRunningOutputAndLatchFrame : Prop :=
  ∀ (i : Instr) (s t : State), exec i s = .next t →
    ((∀ a b, i ≠ .cmp a b) → t.fl = s.fl) ∧
    (i ≠ .hlt → t.running = s.running) ∧
    ((∀ a, i ≠ .prn a) → t.out = s.out) ∧
    (t.fault ≠ s.fault →
      ∃ r, r ∈ i.regOperands ∧ 8 ≤ r.toNat ∧ t = { s with fault := some ⟨.outOfBoundsRegister r, s.pc⟩ })

/-! ### Whole-machine rules -/

/-- R31 and R159: only CMP writes FL, in any step; every CMP that completes sets exactly one of the three flags, the one
that matches the order of the two register values as unsigned numbers. -/
def Obligations.OnlyCmpWritesTheFlags : Prop :=
  (∀ (m : OpcodeMap) (s t : State), stepWith m s = .next t → t.fl ≠ s.fl →
    ∃ a b, fetchDecode m s = .ok (.cmp a b)) ∧
  (∀ (a b : Byte) (s : State) (_ha : a.toNat < 8) (_hb : b.toNat < 8),
    ∃ t, exec (.cmp a b) s = .next t ∧
      (t.fl = .less ↔ (s.x[a.toNat]).toNat < (s.x[b.toNat]).toNat) ∧
      (t.fl = .greater ↔ (s.x[b.toNat]).toNat < (s.x[a.toNat]).toNat) ∧
      (t.fl = .equal ↔ (s.x[a.toNat]).toNat = (s.x[b.toNat]).toNat) ∧
      t.fl ≠ .clear)

/-- R181: HLT is the only instruction that changes `running`, nothing sets it back to true but reset, and HLT writes no
register, memory cell, flag or output. -/
def Obligations.OnlyHltChangesRunning : Prop :=
  (∀ (m : OpcodeMap) (s t : State), stepWith m s = .next t → t.running ≠ s.running →
    fetchDecode m s = .ok .hlt ∧ t.running = false) ∧
  (∀ s : State, ∃ t, exec .hlt s = .next t ∧ t.running = false ∧
    t.x = s.x ∧ t.mem = s.mem ∧ t.fl = s.fl ∧ t.out = s.out) ∧
  State.reset.running = true

/-- 10_state section 6: the output sequence is empty at reset and only grows, by one value per executed PRN, the value
of the register it names, at the end. -/
def Obligations.OutputOnlyGrowsByPrn : Prop :=
  State.reset.out = [] ∧
  ∀ (m : OpcodeMap) (s t : State), stepWith m s = .next t →
    t.out = s.out ∨
    ∃ a v, fetchDecode m s = .ok (.prn a) ∧ readReg s a = .ok v ∧ t.out = s.out ++ [v]

/-! ### What an instruction does not read -/

/-- 10_state section 3 (an inference the spec marks as derived): no instruction reads L or G. A step from two states
that differ only in L against G ends in states that agree on everything but, at most, that difference. -/
def Obligations.LessAndGreaterAreNeverRead : Prop :=
  ∀ (m : OpcodeMap) (s t : State), stepWith m { s with fl := .less } = .next t →
    ∃ u, stepWith m { s with fl := .greater } = .next u ∧
      u = { t with fl := u.fl } ∧ (u.fl = t.fl ∨ (t.fl = .less ∧ u.fl = .greater))

/-- 10_state section 6: the output sequence is never read back. A step with more output before it does the same, with
that output before its own. -/
def Obligations.OutputIsNeverReadBack : Prop :=
  ∀ (m : OpcodeMap) (s t : State) (earlier : List Byte), stepWith m s = .next t →
    stepWith m { s with out := earlier ++ s.out } = .next { t with out := earlier ++ t.out }

/-- 10_state section 1 (which registers an instruction reads and writes; the spec marks the list as derived): a register
that an instruction neither names nor uses as SP has no influence on it. -/
def Obligations.UnnamedRegistersAreNeverRead : Prop :=
  ∀ (i : Instr) (s t : State) (r : Fin 8) (v : Byte),
    (∀ o ∈ i.regOperands, o.toNat ≠ r.val) →
    ((∃ a, i = .push a ∨ i = .pop a) → r.val ≠ 7) →
    exec i s = .next t →
    exec i { s with x := s.x.set r.val v r.isLt } = .next { t with x := t.x.set r.val v r.isLt }

/-- 20_memory section 1: a step reads memory only at pc, pc+1, pc+2 and SP. A byte elsewhere has no influence on the
registers, pc, flags, running flag, latch and output, nor on any other byte. -/
def Obligations.OtherMemoryIsNeverRead : Prop :=
  ∀ (m : OpcodeMap) (s t : State) (addr : Nat) (v : Byte),
    addr ≠ s.pc → addr ≠ s.pc + 1 → addr ≠ s.pc + 2 → addr ≠ (sp s).toNat →
    stepWith m s = .next t →
    ∃ u, stepWith m { s with mem := memSet s.mem addr v } = .next u ∧
      u.x = t.x ∧ u.pc = t.pc ∧ u.fl = t.fl ∧ u.running = t.running ∧ u.fault = t.fault ∧ u.out = t.out ∧
      ∀ b, b ≠ addr → memGet u.mem b = memGet t.mem b

/-! ### Registers and memory as units -/

/-- R23 and R85: a register index is valid exactly in 0..7; through a valid index a read gives the register and a write changes
only it; through any other byte both raise OutOfBounds(register, i), with no masking to 3 bits. -/
def Obligations.RegisterIndexIsCheckedNotMasked : Prop :=
  ∀ (s : State) (i v : Byte),
    (validReg i = true ↔ i.toNat ≤ 7) ∧
    (∀ _h : i.toNat < 8, readReg s i = .ok s.x[i.toNat] ∧
      ∃ t, writeReg s i v = .ok t ∧ readReg t i = .ok v ∧ t = { s with x := t.x } ∧
        ∀ r : Fin 8, r.val ≠ i.toNat → t.x[r] = s.x[r]) ∧
    (8 ≤ i.toNat → readReg s i = .error (.outOfBoundsRegister i) ∧
      writeReg s i v = .error (.outOfBoundsRegister i))

/-- R51: inside 0..255 a read gives the cell and a write sets it and no other; from 256 up both raise
OutOfBounds(memory, addr) and nothing is read or written; an address is never wrapped. -/
def Obligations.MemoryReadsWhatWasWritten : Prop :=
  ∀ (s : State) (addr : Nat) (v : Byte),
    (addr < 256 → memRead s addr = .ok (memGet s.mem addr) ∧
      ∃ t, memWrite s addr v = .ok t ∧ memRead t addr = .ok v ∧ t = { s with mem := t.mem } ∧
        ∀ b, b ≠ addr → memRead t b = memRead s b) ∧
    (256 ≤ addr → memRead s addr = .error (.outOfBoundsMemory addr) ∧
      memWrite s addr v = .error (.outOfBoundsMemory addr))

/-! ### Reset, invariants, runs -/

/-- 70_reset_and_hazards section 1: what reset leaves. That R0 to R6 and every memory cell are 0 is the spec's own
decision D6 (log 3), and SP = 244 its decision D5. -/
def Obligations.ResetLeavesTheStartupState : Prop :=
  (∀ r : Fin 8, State.reset.x[r] = if r.val = 7 then 244#8 else 0#8) ∧
  State.reset.pc = 0 ∧ State.reset.fl = .equal ∧ State.reset.running = true ∧ State.reset.fault = none ∧
  (∀ addr, memRead State.reset addr = if addr < 256 then .ok 0#8 else .error (.outOfBoundsMemory addr)) ∧
  State.reset.out = []

/-- The machine's invariant holds in the state after reset, whatever the opcode map. -/
def Obligations.MachineInvariantHoldsAtReset : Prop :=
  ∀ m : OpcodeMap, Inv m State.reset

/-- The machine's invariant is kept by every step, from every state that meets it: memory in canonical form, pc in
0..256, exactly one flag set, and a latched record with a legal cause (a memory fault records 256, a register fault an
index from 8 up, an illegal instruction a byte outside the map, an ALU fault never), the pc the core stopped at, and
`running` still true (10_state sections 2, 3 and 5; 20_memory section 1; 60_exceptions sections 1 and 3; several of
these are inferences the spec marks as derived or its own decision D9). -/
def Obligations.MachineInvariantIsKeptByEveryStep : Prop :=
  ∀ (m : OpcodeMap) (s t : State), Inv m s → stepWith m s = .next t → Inv m t

/-- Every state that a run of any image reaches, under any opcode map, meets the machine's invariant. -/
def Obligations.EveryRunOfEveryImageStaysLegal : Prop :=
  ∀ (m : OpcodeMap) (img : List Byte) (s t : State) (k : Nat),
    launch img = .ok s → runWith m k s = some t → Inv m t

/-- 70_reset_and_hazards sections 1 and 2 and 20_memory section 7 (the spec's own decisions D6 and D20): the launch
state is reset with the image at 0..n-1 and 0 elsewhere; an image over 256 bytes cannot be loaded. -/
def Obligations.LaunchPutsTheImageAtZero : Prop :=
  ∀ img : List Byte,
    (img.length ≤ 256 → ∃ s, launch img = .ok s ∧ s = { State.reset with mem := s.mem } ∧
      ∀ k, memGet s.mem k = img.getD k 0#8) ∧
    (256 < img.length → launch img = .error (.outOfBoundsMemory 256))

/-- 40_execution_cycle section 8 (the spec's own decision D21): a run has ended, halted or faulted and never both, in
exactly the states in which the core has no step. -/
def Obligations.RunEndsExactlyWhereNoStepIs : Prop :=
  ∀ (m : OpcodeMap) (s : State),
    (endOf s = some .halted ↔ s.running = false ∧ s.fault = none) ∧
    (∀ r, endOf s = some (.faulted r) ↔ s.fault = some r) ∧
    (endOf s = none ↔ ∃ t, stepWith m s = .next t)

/-- 40_execution_cycle section 8 (the spec's own decision D21): a run ends at most once, in one state; a run that halts
does not also end faulted, and it is a safe run. -/
def Obligations.RunHasAtMostOneEnd : Prop :=
  ∀ (m : OpcodeMap) (s t u : State) (j k : Nat),
    (HaltsIn m j s t → HaltsIn m k s u → j = k ∧ t = u) ∧
    (∀ r q, FaultsIn m j s t r → FaultsIn m k s u q → j = k ∧ t = u ∧ r = q) ∧
    (∀ r, HaltsIn m j s t → ¬ FaultsIn m k s u r) ∧
    (HaltsIn m j s t → SafeRun m j s)

/-! ### Ports and the host -/

/-- 60_exceptions section 1's table (the spec's own decision D10): what the fault ports show for each latched fault, and
that they show code 0 and info 0 with none. -/
def Obligations.FaultPortsShowTheLatch : Prop :=
  (∀ s : State, s.fault = none → (ports s).faultValid = false ∧ (ports s).faultCode = 0#3 ∧ (ports s).faultInfo = 0#9) ∧
  (∀ (s : State) (addr pc : Nat), s.fault = some ⟨.outOfBoundsMemory addr, pc⟩ → addr < 512 → pc < 512 →
    (ports s).faultValid = true ∧ (ports s).faultCode = 1#3 ∧ (ports s).faultInfo.toNat = addr ∧
      (ports s).faultPc.toNat = pc) ∧
  (∀ (s : State) (i : Byte) (pc : Nat), s.fault = some ⟨.outOfBoundsRegister i, pc⟩ → pc < 512 →
    (ports s).faultValid = true ∧ (ports s).faultCode = 2#3 ∧ (ports s).faultInfo.toNat = i.toNat ∧
      (ports s).faultPc.toNat = pc) ∧
  (∀ (s : State) (op : Byte) (pc : Nat), s.fault = some ⟨.illegalInstruction op, pc⟩ → pc < 512 →
    (ports s).faultValid = true ∧ (ports s).faultCode = 3#3 ∧ (ports s).faultInfo.toNat = op.toNat ∧
      (ports s).faultPc.toNat = pc) ∧
  (∀ (s : State) (k : AluKind) (pc : Nat), s.fault = some ⟨.unsupportedAluOp k, pc⟩ → pc < 512 →
    (ports s).faultValid = true ∧ (ports s).faultCode = 4#3 ∧ (ports s).faultInfo.toNat = aluKindCode k ∧
      (ports s).faultPc.toNat = pc) ∧
  [AluKind.add, .mul, .cmp, .sub, .and, .or, .xor, .other].map aluKindCode = [0, 1, 2, 3, 4, 5, 6, 7]

/-- 41_data_movement (the spec's own decision D22): the text of an output value is its decimal digits, most significant
first, at least one of them, with no leading zero but for the single digit 0, then one line feed; the texts stand in the
order of the values. 0 is `0` and 255 is `255`. -/
def Obligations.OutputTextIsCanonicalDecimal : Prop :=
  (∀ v : Byte, (decimal v).foldl (fun n c => 10 * n + (c.toNat - 48)) 0 = v.toNat ∧
    (∀ c ∈ decimal v, 48 ≤ c.toNat ∧ c.toNat ≤ 57) ∧
    decimal v ≠ [] ∧
    ((decimal v).head? = some '0' → decimal v = ['0'])) ∧
  decimal 0#8 = ['0'] ∧ decimal 255#8 = ['2', '5', '5'] ∧
  outText [] = [] ∧
  (∀ (o : List Byte) (v : Byte), outText (o ++ [v]) = outText o ++ decimal v ++ ['\n'])

/-- 70_reset_and_hazards sections 1 and 2 (the spec's own decision D20): after reset the load port writes one byte of
memory and nothing else; once a step has run, the host has no move that writes memory until the next reset. -/
def Obligations.HostLoadsOnlyBeforeTheFirstStep : Prop :=
  (∀ (m : OpcodeMap) (b c : Block) (addr v : Byte), blockStep m b = .next c → blockLoad c addr v = none) ∧
  (∀ (b : Block) (addr v : Byte), b.loading = true →
    ∃ c, blockLoad b addr v = some c ∧ c.loading = true ∧ memGet c.core.mem addr.toNat = v ∧
      c.core = { b.core with mem := c.core.mem } ∧
      ∀ k, k ≠ addr.toNat → memGet c.core.mem k = memGet b.core.mem k) ∧
  blockReset.loading = true ∧ blockReset.core = State.reset

/-- 70_reset_and_hazards section 2 on the image file: everything from the first `#` to the end of the line is dropped,
in any line of any file and at the file's end; and a line that is blank, or of a comment alone, gives no byte and no
failure of its own, wherever it stands. The first three clauses say it of the lines (whose numbers only name a malformed
one), the others of the text. That the white space of a blank line is space, tab and carriage return is the model's
choice (log 12, DESIGN CHOICE). -/
def Obligations.CommentsAndBlankLinesLoadNothing : Prop :=
  (∀ (n : Nat) (body comment : List Char) (rest : List (List Char)),
    parseLines n ((body ++ '#' :: comment) :: rest) = parseLines n (body :: rest)) ∧
  (∀ (n : Nat) (blank comment : List Char) (rest : List (List Char)),
    (∀ c ∈ blank, c = ' ' ∨ c = '\t' ∨ c = '\r') →
    parseLines n (blank :: rest) = parseLines (n + 1) rest ∧
    parseLines n ((blank ++ '#' :: comment) :: rest) = parseLines (n + 1) rest) ∧
  (∀ (n n' : Nat) (lines : List (List Char)), (parseLines n lines).toOption = (parseLines n' lines).toOption) ∧
  (∀ (before comment after : List Char), '\n' ∉ comment →
    parseImage (before ++ '#' :: comment ++ '\n' :: after) = parseImage (before ++ '\n' :: after) ∧
    parseImage (before ++ '#' :: comment) = parseImage before) ∧
  (∀ (before blank after : List Char), (∀ c ∈ blank, c = ' ' ∨ c = '\t' ∨ c = '\r') →
    (parseImage (before ++ '\n' :: blank ++ '\n' :: after)).toOption = (parseImage (before ++ '\n' :: after)).toOption ∧
    (parseImage (blank ++ '\n' :: after)).toOption = (parseImage after).toOption ∧
    (parseImage (before ++ '\n' :: blank)).toOption = (parseImage before).toOption)

/-- 70_reset_and_hazards section 2 on the image file: a line whose token is an 8-character binary literal gives exactly
one byte, its first character bit 7, before the bytes of the lines after it; a line with any other token fails the load
as malformed, by its number. That white space (space, tab, carriage return) around the token is dropped is the model's
choice (log 12, DESIGN CHOICE). -/
def Obligations.EachSurvivingLineGivesOneByte : Prop :=
  ∀ (n : Nat) (lead trail : List Char) (rest : List (List Char)),
    (∀ c ∈ lead ++ trail, c = ' ' ∨ c = '\t' ∨ c = '\r') →
    (∀ bits : List Bool, bits.length = 8 →
      ∃ v : Byte, (∀ k, k < 8 → v.getLsbD (7 - k) = bits.getD k false) ∧
        parseLines n ((lead ++ bits.map (fun b => if b then '1' else '0') ++ trail) :: rest) =
          (parseLines (n + 1) rest).map (fun vs => v :: vs)) ∧
    (∀ token : List Char, token ≠ [] → '#' ∉ token →
      (∀ c, token.head? = some c ∨ token.getLast? = some c → c ≠ ' ' ∧ c ≠ '\t' ∧ c ≠ '\r') →
      ¬ (token.length = 8 ∧ ∀ c ∈ token, c = '0' ∨ c = '1') →
      parseLines n ((lead ++ token ++ trail) :: rest) = .error (.malformedProgramLine n))
end

