-- ==== Sys2Proof/Laws/Decode.lean ====
section
/-! SUPPORT. The laws of the opcode map and the decoder's lookup (R84, R86), for every injective opcode map. -/

namespace Sys2Proof

theorem Mnemonic.mem_all (k : Mnemonic) : k ∈ Mnemonic.all := by
  cases k <;> decide

/-- The byte of an instruction looks that instruction up. -/
@[simp] theorem lookupOpcode_byte (m : OpcodeMap) (k : Mnemonic) : lookupOpcode m (m.byte k) = some k := by
  unfold lookupOpcode
  cases h : Mnemonic.all.find? (fun j => m.byte j == m.byte k) with
  | none =>
    have := List.find?_eq_none.1 h k (Mnemonic.mem_all k)
    simp at this
  | some j =>
    have := List.find?_some h
    rw [m.inj j k (by simpa using this)]

/-- What a lookup finds has that byte. -/
theorem lookupOpcode_some {m : OpcodeMap} {op : Byte} {k : Mnemonic} (h : lookupOpcode m op = some k) :
    m.byte k = op := by
  simpa using List.find?_some h

/-- A lookup finds nothing exactly when the byte is not in the map. -/
theorem lookupOpcode_none {m : OpcodeMap} {op : Byte} :
    lookupOpcode m op = none ↔ ∀ k, m.byte k ≠ op := by
  unfold lookupOpcode
  rw [List.find?_eq_none]
  constructor
  · intro h k hk; exact h k (Mnemonic.mem_all k) (by simpa using hk)
  · intro h k _; simpa using h k

/-- The decoder on a byte of the map. -/
@[simp] theorem decode_byte (m : OpcodeMap) (k : Mnemonic) (a b : Byte) :
    decode m (m.byte k) a b = .ok (build k a b) := by
  simp [decode]

/-- The decoder on a byte outside the map. -/
theorem decode_illegal {m : OpcodeMap} {op : Byte} (h : ∀ k, m.byte k ≠ op) (a b : Byte) :
    decode m op a b = .error (.illegalOpcode op) := by
  simp [decode, lookupOpcode_none.2 h]

/-- `build` keeps the name it was given. -/
@[simp] theorem build_mnemonic (k : Mnemonic) (a b : Byte) : (build k a b).mnemonic = k := by
  cases k <;> rfl

end Sys2Proof
end

