-- ==== Sys2Proof/Laws/State.lean ====
section
/-! SUPPORT. One lemma per field per named update of the state, each true by rfl: what the update leaves alone and what
it sets. -/

namespace Sys2Proof.Machine

/-! ### Fault entry -/

@[simp] theorem takeFault_x (f : CoreFault) (s : State) : (takeFault f s).x = s.x := rfl
@[simp] theorem takeFault_pc (f : CoreFault) (s : State) : (takeFault f s).pc = s.pc := rfl
@[simp] theorem takeFault_fl (f : CoreFault) (s : State) : (takeFault f s).fl = s.fl := rfl
@[simp] theorem takeFault_running (f : CoreFault) (s : State) : (takeFault f s).running = s.running := rfl
@[simp] theorem takeFault_fault (f : CoreFault) (s : State) : (takeFault f s).fault = some ⟨f, s.pc⟩ := rfl
@[simp] theorem takeFault_mem (f : CoreFault) (s : State) : (takeFault f s).mem = s.mem := rfl
@[simp] theorem takeFault_out (f : CoreFault) (s : State) : (takeFault f s).out = s.out := rfl

/-! ### Writing SP -/

@[simp] theorem setSp_x (s : State) (v : Byte) : (setSp s v).x = s.x.set 7 v := rfl
@[simp] theorem setSp_pc (s : State) (v : Byte) : (setSp s v).pc = s.pc := rfl
@[simp] theorem setSp_fl (s : State) (v : Byte) : (setSp s v).fl = s.fl := rfl
@[simp] theorem setSp_running (s : State) (v : Byte) : (setSp s v).running = s.running := rfl
@[simp] theorem setSp_fault (s : State) (v : Byte) : (setSp s v).fault = s.fault := rfl
@[simp] theorem setSp_mem (s : State) (v : Byte) : (setSp s v).mem = s.mem := rfl
@[simp] theorem setSp_out (s : State) (v : Byte) : (setSp s v).out = s.out := rfl

/-- SP reads back what was written to it (R21). -/
@[simp] theorem sp_setSp (s : State) (v : Byte) : sp (setSp s v) = v := by
  simp [sp, setSp]

/-! ### Emitting -/

@[simp] theorem emit_x (s : State) (v : Byte) : (emit s v).x = s.x := rfl
@[simp] theorem emit_pc (s : State) (v : Byte) : (emit s v).pc = s.pc := rfl
@[simp] theorem emit_fl (s : State) (v : Byte) : (emit s v).fl = s.fl := rfl
@[simp] theorem emit_running (s : State) (v : Byte) : (emit s v).running = s.running := rfl
@[simp] theorem emit_fault (s : State) (v : Byte) : (emit s v).fault = s.fault := rfl
@[simp] theorem emit_mem (s : State) (v : Byte) : (emit s v).mem = s.mem := rfl
@[simp] theorem emit_out (s : State) (v : Byte) : (emit s v).out = s.out ++ [v] := rfl

end Sys2Proof.Machine
end

