-- ==== Sys2Proof/Laws/Memory.lean ====
section
/-! SUPPORT. The laws of memory as data: a read after a write, and that every operation on memory keeps the canonical
form, which the memory after reset has. -/

namespace Sys2Proof.Machine

/-! ### Reading after writing -/

theorem memGet_memInsert_same (mem : List Host.Cell) (a : Nat) (v : Byte) :
    memGet (memInsert mem a v) a = v := by
  induction mem with
  | nil => simp [memInsert, memGet]
  | cons c rest ih =>
    obtain ⟨k, w⟩ := c
    simp only [memInsert]
    split
    · rw [memGet, if_neg (by omega)]; exact ih
    · split <;> simp [memGet]

theorem memGet_memInsert_other (mem : List Host.Cell) (a b : Nat) (v : Byte) (h : a ≠ b) :
    memGet (memInsert mem a v) b = memGet mem b := by
  induction mem with
  | nil => simp [memInsert, memGet, h]
  | cons c rest ih =>
    obtain ⟨k, w⟩ := c
    simp only [memInsert]
    split
    · simp only [memGet, ih]
    · split
      · next h1 => subst h1; simp [memGet, h]
      · simp [memGet, h]

theorem memGet_filter_same (mem : List Host.Cell) (a : Nat) :
    memGet (mem.filter (fun c => c.1 ≠ a)) a = Config.resetFill := by
  induction mem with
  | nil => rfl
  | cons c rest ih =>
    obtain ⟨k, w⟩ := c
    by_cases h : k = a
    · simpa [h] using ih
    · simpa [h, memGet] using ih

theorem memGet_filter_other (mem : List Host.Cell) (a b : Nat) (h : a ≠ b) :
    memGet (mem.filter (fun c => c.1 ≠ a)) b = memGet mem b := by
  induction mem with
  | nil => rfl
  | cons c rest ih =>
    obtain ⟨k, w⟩ := c
    by_cases hk : k = a
    · subst hk; simpa [memGet, h] using ih
    · simp only [ne_eq, hk, not_false_eq_true, decide_true, List.filter_cons_of_pos, memGet]
      split
      · rfl
      · simpa using ih

/-- A read after a write to the same address gives the value written. -/
@[simp] theorem memGet_memSet_same (mem : List Host.Cell) (a : Nat) (v : Byte) :
    memGet (memSet mem a v) a = v := by
  unfold memSet
  split
  · next h => rw [h]; exact memGet_filter_same mem a
  · exact memGet_memInsert_same mem a v

/-- A write leaves every other address alone. -/
theorem memGet_memSet_other (mem : List Host.Cell) (a b : Nat) (v : Byte) (h : a ≠ b) :
    memGet (memSet mem a v) b = memGet mem b := by
  unfold memSet
  split
  · exact memGet_filter_other mem a b h
  · exact memGet_memInsert_other mem a b v h

/-! ### The canonical form -/

/-- The canonical form of a non-empty list, piece by piece. -/
theorem memWf_cons (c : Host.Cell) (rest : List Host.Cell) :
    Memory.wf (c :: rest) = true ↔
      (∀ d ∈ rest, c.1 < d.1) ∧ c.1 < 256 ∧ c.2 ≠ 0#8 ∧ Memory.wf rest = true := by
  simp only [Memory.wf, memRising, List.all_cons, Bool.and_eq_true, List.all_eq_true, decide_eq_true_eq,
    bne_iff_ne, Config.memSize, Config.resetFill]
  tauto

theorem memWf_nil : Memory.wf [] = true := rfl

/-- Every listed address is inside memory. -/
theorem memWf_mem_lt {mem : List Host.Cell} (h : Memory.wf mem = true) {c : Host.Cell} (hc : c ∈ mem) :
    c.1 < 256 := by
  induction mem with
  | nil => cases hc
  | cons d rest ih =>
    obtain ⟨-, h2, -, h4⟩ := (memWf_cons d rest).1 h
    rcases List.mem_cons.1 hc with rfl | hc
    · exact h2
    · exact ih h4 hc

theorem mem_memInsert {mem : List Host.Cell} {a : Nat} {v : Byte} {d : Host.Cell}
    (h : d ∈ memInsert mem a v) : d = (a, v) ∨ d ∈ mem := by
  induction mem with
  | nil => simpa [memInsert] using h
  | cons c rest ih =>
    obtain ⟨k, w⟩ := c
    simp only [memInsert] at h
    split at h
    · rcases List.mem_cons.1 h with rfl | h
      · simp
      · rcases ih h with h | h <;> simp [h]
    · split at h
      · rcases List.mem_cons.1 h with rfl | h <;> simp [*]
      · rcases List.mem_cons.1 h with rfl | h
        · simp
        · exact Or.inr h

theorem memWf_memInsert {mem : List Host.Cell} {a : Nat} {v : Byte} (h : Memory.wf mem = true)
    (ha : a < 256) (hv : v ≠ 0#8) : Memory.wf (memInsert mem a v) = true := by
  induction mem with
  | nil => simp only [memInsert, memWf_cons]; simp [ha, hv, memWf_nil]
  | cons c rest ih =>
    obtain ⟨k, w⟩ := c
    obtain ⟨h1, h2, h3, h4⟩ := (memWf_cons _ _).1 h
    simp only at h1 h2 h3
    simp only [memInsert]
    split
    · next hk =>
      refine (memWf_cons _ _).2 ⟨fun d hd => ?_, h2, h3, ih h4⟩
      rcases mem_memInsert hd with rfl | hd
      · exact hk
      · exact h1 d hd
    · split
      · next hk => subst hk; exact (memWf_cons _ _).2 ⟨h1, ha, hv, h4⟩
      · next hk hne =>
        refine (memWf_cons _ _).2 ⟨fun d hd => ?_, ha, hv, h⟩
        rcases List.mem_cons.1 hd with rfl | hd
        · simp only; omega
        · have := h1 d hd; simp only; omega

theorem memWf_filter {mem : List Host.Cell} (p : Host.Cell → Bool) (h : Memory.wf mem = true) :
    Memory.wf (mem.filter p) = true := by
  induction mem with
  | nil => exact h
  | cons c rest ih =>
    obtain ⟨h1, h2, h3, h4⟩ := (memWf_cons c rest).1 h
    by_cases hp : p c = true
    · rw [List.filter_cons_of_pos hp]
      exact (memWf_cons _ _).2 ⟨fun d hd => h1 d (List.mem_filter.1 hd).1, h2, h3, ih h4⟩
    · rw [List.filter_cons_of_neg hp]; exact ih h4

/-- Writing a byte inside memory keeps the canonical form. -/
theorem memWf_memSet {mem : List Host.Cell} {a : Nat} (v : Byte) (h : Memory.wf mem = true) (ha : a < 256) :
    Memory.wf (memSet mem a v) = true := by
  unfold memSet
  split
  · exact memWf_filter _ h
  · next hv => exact memWf_memInsert h ha hv

/-- The memory after reset is in canonical form. -/
theorem memWf_reset : Memory.wf State.reset.mem = true := rfl

/-! ### The primitives -/

theorem memRead_of_lt {addr : Nat} (s : State) (h : addr < 256) : memRead s addr = .ok (memGet s.mem addr) := by
  simp [memRead, h]

theorem memRead_of_ge {addr : Nat} (s : State) (h : 256 ≤ addr) :
    memRead s addr = .error (.outOfBoundsMemory addr) := by
  simp [memRead, Nat.not_lt.2 h]

theorem memWrite_of_lt {addr : Nat} (s : State) (v : Byte) (h : addr < 256) :
    memWrite s addr v = .ok { s with mem := memSet s.mem addr v } := by
  simp [memWrite, h]

theorem memWrite_of_ge {addr : Nat} (s : State) (v : Byte) (h : 256 ≤ addr) :
    memWrite s addr v = .error (.outOfBoundsMemory addr) := by
  simp [memWrite, Nat.not_lt.2 h]

/-- `MemWrite` keeps the canonical form. -/
theorem memWf_memWrite {s t : State} {addr : Nat} {v : Byte} (h : memWrite s addr v = .ok t)
    (hs : Memory.wf s.mem = true) : Memory.wf t.mem = true := by
  by_cases ha : addr < 256
  · rw [memWrite_of_lt s v ha] at h; cases h; exact memWf_memSet v hs ha
  · rw [memWrite_of_ge s v (by omega)] at h; cases h

/-- `poke` keeps the canonical form. -/
theorem memWf_poke {s : State} (addr : Nat) (v : Byte) (hs : Memory.wf s.mem = true) :
    Memory.wf (poke s addr v).mem = true := by
  unfold poke
  split
  · next h => exact memWf_memSet v hs h
  · exact hs

/-- `pokeWord` keeps the canonical form. -/
theorem memWf_pokeWord {s : State} (nbits w : Nat) (hs : Memory.wf s.mem = true) :
    Memory.wf (pokeWord s nbits w).mem = true :=
  memWf_poke _ _ (memWf_poke _ _ (memWf_poke _ _ hs))

/-- Loading an image keeps the canonical form. -/
theorem memWf_loadBytes {img : List Byte} {addr : Nat} {s t : State} (h : loadBytes addr img s = .ok t)
    (hs : Memory.wf s.mem = true) : Memory.wf t.mem = true := by
  induction img generalizing addr s with
  | nil => cases h; exact hs
  | cons v rest ih =>
    by_cases ha : addr < 256
    · rw [loadBytes, memWrite_of_lt s v ha] at h
      exact ih h (memWf_memSet v hs ha)
    · rw [loadBytes, memWrite_of_ge s v (by omega)] at h; cases h

end Sys2Proof.Machine
end

