-- ==== Sys2Proof/Laws/Host.lean ====
section
/-! SUPPORT. The laws of what stands around the core: loading an image, the decimal digits, the image file's
comments and lines. -/

namespace Sys2Proof.Machine

/-- Loading an image changes memory alone. -/
theorem loadBytes_frame {img : List Byte} {addr : Nat} {s t : State} (h : loadBytes addr img s = .ok t) :
    t = { s with mem := t.mem } := by
  induction img generalizing addr s with
  | nil => cases h; rfl
  | cons v rest ih =>
    by_cases ha : addr < 256
    · rw [loadBytes, memWrite_of_lt s v ha] at h
      rw [ih h]
    · rw [loadBytes, memWrite_of_ge s v (by omega)] at h; cases h

/-- A digit's character code. -/
theorem digitChar_toNat {n : Nat} (h : n < 10) : (digitChar n).toNat = 48 + n := by
  interval_cases n <;> rfl

/-- Only the digit zero is the character `0`. -/
theorem digitChar_eq_zero {n : Nat} (h : n < 10) : digitChar n = '0' ↔ n = 0 := by
  interval_cases n <;> decide

/-- What `#` starts is dropped. -/
theorem stripComment_append (body comment : List Char) :
    stripComment (body ++ '#' :: comment) = stripComment body := by
  induction body with
  | nil => rfl
  | cons c rest ih =>
    by_cases h : c = '#'
    · simp [stripComment, h]
    · simpa [stripComment, h] using ih

/-- A line without `#` is kept whole. -/
theorem stripComment_of_notMem {line : List Char} (h : '#' ∉ line) : stripComment line = line :=
  List.takeWhile_eq_self_iff.mpr fun c hc => by
    simp only [ne_eq, decide_eq_true_eq]; rintro rfl; exact h hc

/-- A text has at least one line. -/
theorem splitLines_ne_nil (text : List Char) : splitLines text ≠ [] := by
  cases text with
  | nil => simp [splitLines]
  | cons c rest => simp only [splitLines]; split <;> [simp; (split <;> simp)]

/-- A line feed separates the lines before it from those after it. -/
theorem splitLines_append (before after : List Char) :
    splitLines (before ++ '\n' :: after) = splitLines before ++ splitLines after := by
  induction before with
  | nil => simp [splitLines]
  | cons c rest ih =>
    by_cases h : c = '\n'
    · simp [splitLines, h, ih]
    · obtain ⟨l, ls, e⟩ := List.exists_cons_of_ne_nil (splitLines_ne_nil rest)
      simp [splitLines, h, ih, e]

/-- The bytes and the success of the lines' parse do not depend on their numbers. -/
theorem parseLines_toOption (lines : List (List Char)) (n n' : Nat) :
    (parseLines n lines).toOption = (parseLines n' lines).toOption := by
  induction lines generalizing n n' with
  | nil => rfl
  | cons l rest ih =>
    have := ih (n + 1) (n' + 1)
    simp only [parseLines]
    split
    · exact this
    · split
      · rfl
      · revert this
        cases parseLines (n + 1) rest <;> cases parseLines (n' + 1) rest <;>
          simp [Except.toOption, bind, Except.bind, pure, Except.pure]

end Sys2Proof.Machine
end

