-- ==== Sys2Proof/Laws/Ops.lean ====
section
/-! SUPPORT. One spec lemma per shared operation: what it answers for a valid and for an invalid operand, so that no
proof unfolds it again. -/

namespace Sys2Proof.Machine

/-! ### Register operands (R23) -/

theorem readReg_valid {i : Byte} (s : State) (h : i.toNat < 8) : readReg s i = .ok (s.x[i.toNat]'h) := by
  simp [readReg, h]

theorem readReg_invalid {i : Byte} (s : State) (h : 8 ≤ i.toNat) :
    readReg s i = .error (.outOfBoundsRegister i) := by
  simp [readReg, Nat.not_lt.2 h]

theorem writeReg_valid {i : Byte} (s : State) (v : Byte) (h : i.toNat < 8) :
    writeReg s i v = .ok { s with x := s.x.set i.toNat v h } := by
  simp [writeReg, h]

theorem writeReg_invalid {i : Byte} (s : State) (v : Byte) (h : 8 ≤ i.toNat) :
    writeReg s i v = .error (.outOfBoundsRegister i) := by
  simp [writeReg, Nat.not_lt.2 h]

/-! ### The pc sequencer (R116) -/

@[simp] theorem sequencePc_advance (s t : State) (n : Nat) :
    sequencePc s (.ok (t, .advance n)) = .next { t with pc := s.pc + n } := rfl

@[simp] theorem sequencePc_pcSet (s t : State) : sequencePc s (.ok (t, .pcSet)) = .next t := rfl

@[simp] theorem sequencePc_error (s : State) (f : CoreFault) :
    sequencePc s (.error f) = .next (takeFault f s) := rfl

/-- The sequencer always answers a next state. -/
theorem sequencePc_next (s : State) (r : Handled) : ∃ t, sequencePc s r = .next t := by
  match r with
  | .ok (t, .advance n) => exact ⟨_, rfl⟩
  | .ok (t, .pcSet) => exact ⟨_, rfl⟩
  | .error f => exact ⟨_, rfl⟩

/-- What the sequencer answers, said once: the handler's state with pc advanced, the handler's state, or fault entry on
the state before the step. -/
theorem sequencePc_eq_next {s t : State} {r : Handled} (h : sequencePc s r = .next t) :
    (∃ u n, r = .ok (u, .advance n) ∧ t = { u with pc := s.pc + n }) ∨
    r = .ok (t, .pcSet) ∨
    (∃ f, r = .error f ∧ t = takeFault f s) := by
  match r, h with
  | .ok (u, .advance n), h => cases h; exact Or.inl ⟨u, n, rfl, rfl⟩
  | .ok (u, .pcSet), h => cases h; exact Or.inr (Or.inl rfl)
  | .error f, h => cases h; exact Or.inr (Or.inr ⟨f, rfl, rfl⟩)

/-! ### Jumps (R89) -/

theorem jumpToReg_valid {a : Byte} (s : State) (h : a.toNat < 8) :
    jumpToReg s a = .ok ({ s with pc := (s.x[a.toNat]'h).toNat }, .pcSet) := by
  simp only [jumpToReg, readReg_valid s h]; rfl

theorem jumpToReg_invalid {a : Byte} (s : State) (h : 8 ≤ a.toNat) :
    jumpToReg s a = .error (.outOfBoundsRegister a) := by
  simp only [jumpToReg, readReg_invalid s h]; rfl

/-! ### The ALU body (R150, R151) -/

theorem aluInstr_invalid_a {a b : Byte} (k : AluKind) (s : State) (h : 8 ≤ a.toNat) :
    aluInstr k a b s = .error (.outOfBoundsRegister a) := by
  simp only [aluInstr, readReg_invalid s h]; rfl

theorem aluInstr_invalid_b {a b : Byte} (k : AluKind) (s : State) (ha : a.toNat < 8) (h : 8 ≤ b.toNat) :
    aluInstr k a b s = .error (.outOfBoundsRegister b) := by
  simp only [aluInstr, readReg_valid s ha, readReg_invalid s h]; rfl

theorem aluInstr_add {a b : Byte} (s : State) (ha : a.toNat < 8) (hb : b.toNat < 8) :
    aluInstr .add a b s =
      .ok ({ s with x := s.x.set a.toNat (add8 (s.x[a.toNat]'ha) (s.x[b.toNat]'hb)) ha }, .advance 3) := by
  simp only [aluInstr, readReg_valid s ha, readReg_valid s hb, alu, aluWriteBack, writeReg_valid s _ ha, bind, pure,
    Except.bind, Except.pure]

theorem aluInstr_mul {a b : Byte} (s : State) (ha : a.toNat < 8) (hb : b.toNat < 8) :
    aluInstr .mul a b s =
      .ok ({ s with x := s.x.set a.toNat (mul8 (s.x[a.toNat]'ha) (s.x[b.toNat]'hb)) ha }, .advance 3) := by
  simp only [aluInstr, readReg_valid s ha, readReg_valid s hb, alu, aluWriteBack, writeReg_valid s _ ha, bind, pure,
    Except.bind, Except.pure]

theorem aluInstr_cmp {a b : Byte} (s : State) (ha : a.toNat < 8) (hb : b.toNat < 8) :
    aluInstr .cmp a b s =
      .ok ({ s with fl := compareFlags (s.x[a.toNat]'ha) (s.x[b.toNat]'hb) }, .advance 3) := by
  simp only [aluInstr, readReg_valid s ha, readReg_valid s hb, alu, aluWriteBack, bind, pure, Except.bind, Except.pure]

/-- CMP never leaves FL with no flag set (R158). -/
theorem compareFlags_ne_clear (p q : Byte) : compareFlags p q ≠ .clear := by
  unfold compareFlags
  split
  · decide
  · split <;> decide

/-- A byte's value is an address inside memory (R53). -/
theorem byte_lt_memSize (v : Byte) : v.toNat < 256 := v.isLt

end Sys2Proof.Machine
end

