-- ==== Sys2Proof/Laws/PerInstr.lean ====
section
/-! SUPPORT. The family `EncodeShape`, one lemma per instruction: its encoding is its opcode byte followed by operand
bytes, as many bytes in all as the length table says, between 1 and 3 (R80, R82). -/

namespace Sys2Proof.Laws.EncodeShape

/-- R80: a length is 1, 2 or 3. -/
theorem length_bounds (k : Mnemonic) : 1 ≤ lengthOf k ∧ lengthOf k ≤ 3 := by
  cases k <;> decide

/-- The encoding of `i` starts with its opcode byte and has its length, 1, 2 or 3, whatever the opcode map. -/
def Statement (i : Instr) : Prop :=
  ∀ m : OpcodeMap, (encode m i).head? = some (m.byte i.mnemonic) ∧ (encode m i).length = lengthOf i.mnemonic ∧
    1 ≤ lengthOf i.mnemonic ∧ lengthOf i.mnemonic ≤ 3

theorem hlt : Statement .hlt := fun _ => ⟨rfl, rfl, length_bounds _⟩
theorem ldi (a b : Byte) : Statement (.ldi a b) := fun _ => ⟨rfl, rfl, length_bounds _⟩
theorem prn (a : Byte) : Statement (.prn a) := fun _ => ⟨rfl, rfl, length_bounds _⟩
theorem add (a b : Byte) : Statement (.add a b) := fun _ => ⟨rfl, rfl, length_bounds _⟩
theorem mul (a b : Byte) : Statement (.mul a b) := fun _ => ⟨rfl, rfl, length_bounds _⟩
theorem push (a : Byte) : Statement (.push a) := fun _ => ⟨rfl, rfl, length_bounds _⟩
theorem pop (a : Byte) : Statement (.pop a) := fun _ => ⟨rfl, rfl, length_bounds _⟩
theorem cmp (a b : Byte) : Statement (.cmp a b) := fun _ => ⟨rfl, rfl, length_bounds _⟩
theorem jmp (a : Byte) : Statement (.jmp a) := fun _ => ⟨rfl, rfl, length_bounds _⟩
theorem jeq (a : Byte) : Statement (.jeq a) := fun _ => ⟨rfl, rfl, length_bounds _⟩
theorem jne (a : Byte) : Statement (.jne a) := fun _ => ⟨rfl, rfl, length_bounds _⟩

end Sys2Proof.Laws.EncodeShape
end

