-- ==== Sys2Proof/Laws/Step.lean ====
section
/-! SUPPORT. What fetch, an instruction and a step can do, said once. -/

namespace Sys2Proof.Machine

/-- The fetch unit where all three addresses are inside memory (R111). -/
theorem fetch_of_lt {s : State} (h : s.pc + 2 < 256) :
    fetch s = .ok ⟨memGet s.mem s.pc, memGet s.mem (s.pc + 1), memGet s.mem (s.pc + 2)⟩ := by
  simp only [fetch, memAddress, memRead_of_lt s (show s.pc < 256 by omega),
    memRead_of_lt s (show s.pc + 1 < 256 by omega), memRead_of_lt s h]
  rfl

/-- The fetch unit where pc itself is outside memory. -/
theorem fetch_of_ge {s : State} (h : 256 ≤ s.pc) : fetch s = .error (.outOfBoundsMemory s.pc) := by
  simp only [fetch, memAddress, memRead_of_ge s h]; rfl

/-- The fetch unit at pc 254 or 255: address 256 is the first outside memory (R112). -/
theorem fetch_at_edge {s : State} (h : s.pc < 256) (h2 : 256 ≤ s.pc + 2) :
    fetch s = .error (.outOfBoundsMemory 256) := by
  by_cases h1 : s.pc = 255
  · simp only [fetch, memAddress, memRead_of_lt s h, memRead_of_ge s (show 256 ≤ s.pc + 1 by omega)]
    simp [h1, bind, Except.bind]
  · have h3 : s.pc = 254 := by omega
    simp only [fetch, memAddress, memRead_of_lt s h, memRead_of_lt s (show s.pc + 1 < 256 by omega), memRead_of_ge s h2]
    simp [h3, bind, Except.bind]

/-- The gate of R110 is open exactly when the core runs with no fault latched. -/
theorem noStep_none {s : State} : noStep s = none ↔ s.running = true ∧ s.fault = none := by
  unfold noStep
  cases s.fault <;> cases s.running <;> simp

/-- Every instruction answers a next state, whatever the state and the operands. -/
theorem exec_next (i : Instr) (s : State) : ∃ t, exec i s = .next t := by
  cases i <;>
    simp only [exec, execHlt, execLdi, execPrn, execAdd, execMul, execPush, execPop, execCmp, execJmp, execJeq, execJne]
      <;> exact sequencePc_next _ _

/-- What a step that answers a next state can do: it ran with the gate open, and it either took a fault of fetch or
decode, or ran the instruction at pc. -/
theorem stepWith_next {m : OpcodeMap} {s t : State} (h : stepWith m s = .next t) :
    s.running = true ∧ s.fault = none ∧
      ((∃ f, fetchDecode m s = .error f ∧ t = takeFault f s) ∨ (∃ i, fetchDecode m s = .ok i ∧ exec i s = .next t)) := by
  unfold stepWith at h
  cases hn : noStep s with
  | some f => simp [hn] at h
  | none =>
    obtain ⟨h1, h2⟩ := noStep_none.1 hn
    refine ⟨h1, h2, ?_⟩
    simp only [hn] at h
    cases hd : fetchDecode m s with
    | error f => simp only [hd] at h; cases h; exact Or.inl ⟨f, rfl, rfl⟩
    | ok i => simp only [hd] at h; exact Or.inr ⟨i, rfl, h⟩

/-- Where fetch and decode give an instruction, all three fetch addresses are inside memory. -/
theorem fetchDecode_ok_pc {m : OpcodeMap} {s : State} {i : Instr} (h : fetchDecode m s = .ok i) : s.pc + 2 < 256 := by
  by_contra hc
  by_cases h1 : s.pc < 256
  · simp [fetchDecode, fetch_at_edge h1 (by omega), bind, Except.bind] at h
  · simp [fetchDecode, fetch_of_ge (show 256 ≤ s.pc by omega), bind, Except.bind] at h

/-- What fetch and decode can raise (R111, R113). -/
theorem fetchDecode_error {m : OpcodeMap} {s : State} {f : CoreFault} (h : fetchDecode m s = .error f) :
    (256 ≤ s.pc ∧ f = .outOfBoundsMemory s.pc) ∨
    (s.pc < 256 ∧ 256 ≤ s.pc + 2 ∧ f = .outOfBoundsMemory 256) ∨
    (s.pc + 2 < 256 ∧ (∀ k, m.byte k ≠ memGet s.mem s.pc) ∧ f = .illegalInstruction (memGet s.mem s.pc)) := by
  by_cases h0 : 256 ≤ s.pc
  · simp [fetchDecode, fetch_of_ge h0, bind, Except.bind] at h
    exact Or.inl ⟨h0, h.symm⟩
  · by_cases h2 : 256 ≤ s.pc + 2
    · simp [fetchDecode, fetch_at_edge (show s.pc < 256 by omega) h2, bind, Except.bind] at h
      exact Or.inr (Or.inl ⟨by omega, h2, h.symm⟩)
    · refine Or.inr (Or.inr ⟨by omega, ?_⟩)
      simp only [fetchDecode, fetch_of_lt (show s.pc + 2 < 256 by omega), bind, Except.bind, decode] at h
      cases hl : lookupOpcode m (memGet s.mem s.pc) with
      | some k => simp [hl] at h
      | none => simp [hl] at h; exact ⟨lookupOpcode_none.1 hl, h.symm⟩

end Sys2Proof.Machine
end

