-- ==== Sys2Proof/Tests/Slice0.lean ====
section
/-! SUPPORT. Tests. Each expected result is a vector of spec/95_test_vectors.md (named in the comment) or worked out from
a rule; the witnesses at the end meet the hypotheses of the statements in Certificates/Slice0/Obligations.lean. -/

namespace Sys2Proof.Tests

open Sys2Proof Sys2Proof.Machine

/-- The launch state with an image, as the vectors of 95_test_vectors start. -/
def launched (img : List Byte) : State :=
  match launch img with
  | .ok s => s
  | .error _ => State.reset

/-- The launch state with bytes at `pc` and pc there. -/
def launchedAt (pc : Nat) (img : List Byte) : State :=
  match loadBytes pc img State.reset with
  | .ok s => { s with pc := pc }
  | .error _ => State.reset

/-- A state with some registers set. -/
def withRegs (s : State) (rs : List (Fin 8 × Byte)) : State :=
  rs.foldl (fun u r => { u with x := u.x.set r.1.val r.2 r.1.isLt }) s

/-- What a field reads as in the state one step answers. -/
def after {α : Type} (s : State) (f : State → α) : Option α :=
  match step s with
  | .next t => some (f t)
  | .fault _ => none
  | .refused _ => none

/-! ### Well-formedness: one ill-formed term for each operand position the check reads -/

theorem test_wf_refuses_ldi : (Instr.ldi 8#8 0#8).wellFormed = false := by decide
theorem test_wf_refuses_prn : (Instr.prn 8#8).wellFormed = false := by decide
theorem test_wf_refuses_add_a : (Instr.add 8#8 0#8).wellFormed = false := by decide
theorem test_wf_refuses_add_b : (Instr.add 0#8 8#8).wellFormed = false := by decide
theorem test_wf_refuses_mul_a : (Instr.mul 255#8 0#8).wellFormed = false := by decide
theorem test_wf_refuses_mul_b : (Instr.mul 0#8 255#8).wellFormed = false := by decide
theorem test_wf_refuses_push : (Instr.push 9#8).wellFormed = false := by decide
theorem test_wf_refuses_pop : (Instr.pop 9#8).wellFormed = false := by decide
theorem test_wf_refuses_cmp_a : (Instr.cmp 16#8 0#8).wellFormed = false := by decide
theorem test_wf_refuses_cmp_b : (Instr.cmp 0#8 200#8).wellFormed = false := by decide
theorem test_wf_refuses_jmp : (Instr.jmp 8#8).wellFormed = false := by decide
theorem test_wf_refuses_jeq : (Instr.jeq 8#8).wellFormed = false := by decide
theorem test_wf_refuses_jne : (Instr.jne 8#8).wellFormed = false := by decide
/-- The immediate is no register operand (R140): any byte is well-formed. -/
theorem test_wf_accepts_immediate : (Instr.ldi 7#8 255#8).wellFormed = true := by decide

/-! ### Decoding: words written out bit by bit from 30_encoding R81 and R86, bytes lowest first -/

theorem test_decode_hlt : decodeTableWord 8 0b00000001 = some .hlt := by decide
theorem test_decode_ldi : decodeTableWord 24 0b00101010_00000011_10000010 = some (.ldi 3#8 42#8) := by decide
theorem test_decode_prn : decodeTableWord 16 0b00000110_01000111 = some (.prn 6#8) := by decide
theorem test_decode_add : decodeTableWord 24 0b00000001_00000000_10100000 = some (.add 0#8 1#8) := by decide
theorem test_decode_mul : decodeTableWord 24 0b00000101_00000010_10100010 = some (.mul 2#8 5#8) := by decide
theorem test_decode_push : decodeTableWord 16 0b00000111_01000101 = some (.push 7#8) := by decide
theorem test_decode_pop : decodeTableWord 16 0b00000100_01000110 = some (.pop 4#8) := by decide
theorem test_decode_cmp : decodeTableWord 24 0b11001000_00000000_10100111 = some (.cmp 0#8 200#8) := by decide
theorem test_decode_jmp : decodeTableWord 16 0b00000100_01010100 = some (.jmp 4#8) := by decide
theorem test_decode_jeq : decodeTableWord 16 0b00001001_01010101 = some (.jeq 9#8) := by decide
theorem test_decode_jne : decodeTableWord 16 0b00000011_01010110 = some (.jne 3#8) := by decide
/-- R90: 0xA1 is SUB in the LS-8 family and illegal here. -/
theorem test_decode_refuses_sub : decodeTableWord 24 0b00000001_00000000_10100001 = none := by decide
/-- The encoder lays the opcode first (R59): `82 03 2A` (vector D1). -/
theorem test_encode_ldi : encode defaultOpcodeMap (.ldi 3#8 42#8) = [0x82#8, 0x03#8, 0x2A#8] := by decide
/-- A byte string that ends inside an instruction is refused by name. -/
theorem test_stream_truncated : decodeStream defaultOpcodeMap [0xA0#8, 0x00#8] = .error (.truncated 3 2) := by rfl
/-- R93: "for example `LDI R0,8`". -/
theorem test_asm_ldi : asm (.ldi 0#8 8#8) = ['L', 'D', 'I', ' ', 'R', '0', ',', '8'] := by decide

/-! ### Data movement -/

/-- Vector D1. -/
theorem test_ldi : after (launched [0x82#8, 0x03#8, 0x2A#8]) (fun t => (t.x[3], t.pc, t.fl)) = some (42#8, 3, .equal) := by
  decide
/-- Vector D6: an invalid index is not masked; nothing is written. -/
theorem test_ldi_bad_register :
    after (launched [0x82#8, 0xFF#8, 0x05#8]) (fun t => (t.x, t.fault, t.pc)) =
      some (State.reset.x, some ⟨.outOfBoundsRegister 255#8, 0⟩, 0) := by decide
/-- Vector D7. -/
theorem test_prn : after (withRegs (launchedAt 9 [0x47#8, 0x00#8]) [(0, 72#8)]) (fun t => (t.out, t.pc)) =
    some ([72#8], 11) := by decide
/-- Vector D11: no value is emitted. -/
theorem test_prn_bad_register : after (launched [0x47#8, 0x08#8]) (fun t => (t.out, t.fault)) =
    some ([], some ⟨.outOfBoundsRegister 8#8, 0⟩) := by decide

/-! ### The ALU -/

/-- Vector A1: 200 + 100 wraps to 44. -/
theorem test_add_wraps : after (withRegs (launched [0xA0#8, 0x00#8, 0x01#8]) [(0, 200#8), (1, 100#8)])
    (fun t => (t.x[0], t.x[1], t.pc)) = some (44#8, 100#8, 3) := by decide
/-- Vector A16: both operands bad, `a` is reported. -/
theorem test_add_reports_a_first : after (launched [0xA0#8, 0x09#8, 0x0A#8]) (fun t => t.fault) =
    some (some ⟨.outOfBoundsRegister 9#8, 0⟩) := by decide
/-- Vector A8: 400 mod 256. -/
theorem test_mul_wraps : after (withRegs (launched [0xA2#8, 0x00#8, 0x01#8]) [(0, 200#8), (1, 2#8)])
    (fun t => (t.x[0], t.x[1])) = some (144#8, 2#8) := by decide
/-- Vector A9: a source that is also the destination. -/
theorem test_mul_squares : after (withRegs (launched [0xA2#8, 0x00#8, 0x00#8]) [(0, 12#8)])
    (fun t => t.x[0]) = some 144#8 := by decide
/-- Vector A10: 0 against 255. -/
theorem test_cmp_less : after (withRegs (launched [0xA7#8, 0x00#8, 0x01#8]) [(1, 255#8)])
    (fun t => (t.fl, t.x[1], t.pc)) = some (.less, 255#8, 3) := by decide
/-- Vector A12: the comparison is unsigned. -/
theorem test_cmp_unsigned : after (withRegs (launched [0xA7#8, 0x00#8, 0x01#8]) [(0, 128#8), (1, 127#8)])
    (fun t => t.fl) = some .greater := by decide
/-- R151: an unsupported kind raises. -/
theorem test_alu_sub_unsupported : alu .sub 5#8 3#8 = .error (.unsupportedAluOp .sub) := by rfl

/-! ### The stack -/

/-- Vector S5: PUSH R7 stores the decremented SP. -/
theorem test_push_sp : after (launched [0x45#8, 0x07#8]) (fun t => (t.x[7], t.mem.getLast?, t.pc)) =
    some (243#8, some (243, 243#8), 2) := by decide
/-- Vector S9: the decrement is discarded. -/
theorem test_push_bad_register : after (launched [0x45#8, 0x09#8]) (fun t => (t.x[7], memGet t.mem 243, t.fault)) =
    some (244#8, 0#8, some ⟨.outOfBoundsRegister 9#8, 0⟩) := by decide
/-- Vector S7: POP R7 increments the popped value. -/
theorem test_pop_sp : after (withRegs { launched [0x46#8, 0x07#8] with mem := [(0, 0x46#8), (1, 7#8), (243, 100#8)] }
    [(7, 243#8)]) (fun t => t.x[7]) = some 101#8 := by decide
/-- Vector S3: SP wraps from 255 to 0. -/
theorem test_pop_wraps : after (withRegs { launched [0x46#8, 0x01#8] with mem := [(0, 0x46#8), (1, 1#8), (255, 0x11#8)] }
    [(7, 255#8)]) (fun t => (t.x[1], t.x[7])) = some (0x11#8, 0#8) := by decide
/-- Vector S11: PUSH overwrites its own operand byte; the step used the latched one. -/
theorem test_push_over_itself : after (withRegs (launchedAt 242 [0x45#8, 0x00#8]) [(0, 5#8)])
    (fun t => (t.x[7], memGet t.mem 243, t.pc)) = some (243#8, 5#8, 244) := by decide

/-! ### Control -/

/-- Vector X2: the last address an opcode can run from. -/
theorem test_hlt_at_253 : after (launchedAt 253 [0x01#8]) (fun t => (t.running, t.pc)) = some (false, 254) := by decide
/-- Vector X3: at 254 the fetch faults before the HLT. -/
theorem test_hlt_at_254 : after (launchedAt 254 [0x01#8]) (fun t => (t.running, t.fault)) =
    some (true, some ⟨.outOfBoundsMemory 256, 254⟩) := by decide
/-- Vector C2. -/
theorem test_jmp : after (withRegs (launchedAt 33 [0x54#8, 0x04#8]) [(4, 35#8)]) (fun t => (t.pc, t.fl)) =
    some (35, .equal) := by decide
/-- Vector C12. -/
theorem test_jmp_bad_register : after (launched [0x54#8, 0x08#8]) (fun t => (t.pc, t.fault)) =
    some (0, some ⟨.outOfBoundsRegister 8#8, 0⟩) := by decide
/-- Vector C4: taken with no compare before it. -/
theorem test_jeq_taken : after (withRegs (launchedAt 25 [0x55#8, 0x02#8]) [(2, 30#8)]) (fun t => t.pc) = some 30 := by
  decide
/-- Vector C9: not taken, the operand is not checked. -/
theorem test_jeq_not_taken : after { launched [0x55#8, 0x09#8] with fl := .less } (fun t => (t.pc, t.fault)) =
    some (2, none) := by decide
/-- Vector C6. -/
theorem test_jne_taken : after (withRegs { launchedAt 20 [0x56#8, 0x03#8] with fl := .greater } [(3, 12#8)])
    (fun t => t.pc) = some 12 := by decide
/-- Vector C11: not taken, the operand is not checked. -/
theorem test_jne_not_taken : after (launched [0x56#8, 0x09#8]) (fun t => (t.pc, t.fault)) = some (2, none) := by decide

/-! ### Fetch, sequencing, ends, host -/

/-- Vector X1: with no image loaded the first step meets byte 0. -/
theorem test_empty_memory : after State.reset (fun t => (t.fault, t.running)) =
    some (some ⟨.illegalInstruction 0x00#8, 0⟩, true) := by decide
/-- Vector X5: pc can reach 256. -/
theorem test_pc_reaches_256 : after (launchedAt 253 [0x82#8, 0x00#8, 0x07#8]) (fun t => (t.x[0], t.pc)) =
    some (7#8, 256) := by decide
/-- `withFetchWord` places the instruction where step fetches it. -/
theorem test_fetch_word : after (State.reset.withFetchWord 16 0b00000000_01000111) (fun t => (t.out, t.pc)) =
    some ([0#8], 2) := by decide
/-- Vector X6 at the ports: fault_code 3 and the opcode as info. -/
theorem test_ports_illegal : after (launched [0xA1#8]) (fun t => ((ports t).faultCode, (ports t).faultInfo)) =
    some (3#3, 0xA1#9) := by decide
/-- Vector E9 in small: comments and blank lines give no byte; the first digit is bit 7. -/
theorem test_parse_image :
    parseImage ['#', 'x', '\n', '1', '0', '0', '0', '0', '0', '1', '0', ' ', '#', '1', '\n', '\n'] = .ok [0x82#8] := by
  rfl
/-- R208: a line that is no 8-digit binary literal. -/
theorem test_parse_malformed : parseImage ['1', '0', '2'] = .error (.malformedProgramLine 0) := by rfl
/-- The end of a run (R125): HLT ends it halted. -/
theorem test_end_halted : after (launched [0x01#8]) endOf = some (some .halted) := by decide

/-! ### Witnesses: each statement's hypotheses are met, at the boundary of each clause -/

/-- `DecodedBytesAreTheEncoding`. -/
theorem witness_DecodedBytesAreTheEncoding :
    decodeStream defaultOpcodeMap [0x82#8, 0x03#8, 0x2A#8, 0x01#8] = .ok (.ldi 3#8 42#8, [0x01#8]) := by rfl
/-- `UnusedOperandBytesAreIgnored`, both clauses. -/
theorem witness_UnusedOperandBytesAreIgnored : formatOf .hlt = .f1 ∧ formatOf .jne = .f2r := by decide
/-- `IllegalOpcodesFaultOthersDispatch`, a byte outside the map, at the last pc that can fetch. -/
theorem witness_IllegalOpcodes_outside :
    (launchedAt 253 [0x02#8]).running = true ∧ (launchedAt 253 [0x02#8]).fault = none ∧
    (launchedAt 253 [0x02#8]).pc + 2 < 256 ∧
    ∀ k, defaultOpcodeMap.byte k ≠ memGet (launchedAt 253 [0x02#8]).mem (launchedAt 253 [0x02#8]).pc :=
  ⟨rfl, rfl, by decide, by intro k; cases k <;> decide⟩
/-- `IllegalOpcodesFaultOthersDispatch`, a byte of the map. -/
theorem witness_IllegalOpcodes_inside :
    (launchedAt 253 [0x01#8]).running = true ∧ (launchedAt 253 [0x01#8]).fault = none ∧
    (launchedAt 253 [0x01#8]).pc + 2 < 256 ∧
    defaultOpcodeMap.byte .hlt = memGet (launchedAt 253 [0x01#8]).mem (launchedAt 253 [0x01#8]).pc := by decide
/-- `StepRunsTheDecodedInstruction`. -/
theorem witness_StepRunsTheDecodedInstruction :
    (launchedAt 253 [0x82#8, 0x07#8, 0x09#8]).running = true ∧ (launchedAt 253 [0x82#8, 0x07#8, 0x09#8]).fault = none ∧
    (launchedAt 253 [0x82#8, 0x07#8, 0x09#8]).pc + 2 < 256 ∧
    decode defaultOpcodeMap (memGet (launchedAt 253 [0x82#8, 0x07#8, 0x09#8]).mem 253)
      (memGet (launchedAt 253 [0x82#8, 0x07#8, 0x09#8]).mem 254)
      (memGet (launchedAt 253 [0x82#8, 0x07#8, 0x09#8]).mem 255) = .ok (.ldi 7#8 9#8) :=
  ⟨rfl, rfl, by decide, rfl⟩
/-- `FetchReadsThreeBytesInEveryStep`, one pc for each clause: 253, 256, 255 and 254. -/
theorem witness_FetchReadsThreeBytes :
    ({ State.reset with pc := 253 } : State).pc + 2 < 256 ∧ 256 ≤ ({ State.reset with pc := 256 } : State).pc ∧
    (({ State.reset with pc := 255 } : State).pc < 256 ∧ 256 ≤ ({ State.reset with pc := 255 } : State).pc + 1) ∧
    (({ State.reset with pc := 254 } : State).pc + 1 < 256 ∧ 256 ≤ ({ State.reset with pc := 254 } : State).pc + 2) := by
  decide
/-- `FetchReadsThreeBytesInEveryStep`, the faulting step. -/
theorem witness_FetchReadsThreeBytes_fault :
    ({ State.reset with pc := 255 } : State).running = true ∧ ({ State.reset with pc := 255 } : State).fault = none ∧
    fetch { State.reset with pc := 255 } = .error (.outOfBoundsMemory 256) := ⟨rfl, rfl, rfl⟩
/-- `NoInstructionExecutesAt254Or255`, both addresses. -/
theorem witness_NoInstructionExecutesAt254Or255 :
    (launchedAt 254 [0x01#8]).running = true ∧ (launchedAt 254 [0x01#8]).fault = none ∧ (launchedAt 254 [0x01#8]).pc = 254 ∧
    (launchedAt 255 [0x01#8]).running = true ∧ (launchedAt 255 [0x01#8]).fault = none ∧
    (launchedAt 255 [0x01#8]).pc = 255 := by decide
/-- `StepIsPossibleExactlyWhenRunning`, each clause. -/
theorem witness_StepIsPossible :
    (State.reset.running = true ∧ State.reset.fault = none) ∧
    (takeFault (.illegalInstruction 0#8) State.reset).fault = some ⟨.illegalInstruction 0#8, 0⟩ ∧
    (({ State.reset with running := false } : State).fault = none ∧
      ({ State.reset with running := false } : State).running = false) := by decide
/-- `StepLatchesTheFirstFaultThatApplies`, a state for each branch: fetch at 256, 255 and 254, opcode, register, none. -/
theorem witness_StepLatchesTheFirstFault :
    after { State.reset with pc := 256 } (fun t => t.fault) = some (some ⟨.outOfBoundsMemory 256, 256⟩) ∧
    after { State.reset with pc := 255 } (fun t => t.fault) = some (some ⟨.outOfBoundsMemory 256, 255⟩) ∧
    after { State.reset with pc := 254 } (fun t => t.fault) = some (some ⟨.outOfBoundsMemory 256, 254⟩) ∧
    after { State.reset with pc := 253 } (fun t => t.fault) = some (some ⟨.illegalInstruction 0#8, 253⟩) ∧
    after (launched [0xA0#8, 0x00#8, 0x08#8]) (fun t => t.fault) = some (some ⟨.outOfBoundsRegister 8#8, 0⟩) ∧
    after (launched [0xA0#8, 0x00#8, 0x07#8]) (fun t => t.fault) = some none := by decide
/-- `FaultingStepChangesOnlyTheLatch`. -/
theorem witness_FaultingStep : ∃ t, stepWith defaultOpcodeMap State.reset = .next t ∧ t.fault ≠ none :=
  ⟨_, rfl, by decide⟩
/-- `ControlSignalsDescribeEveryInstruction`, both clauses and both pc sources, each memory access and none, each ALU
kind and none. -/
theorem witness_ControlSignals :
    firstInvalid (.add 9#8 10#8) true = some 9#8 ∧ firstInvalid (.add 7#8 8#8) true = some 8#8 ∧
    firstInvalid (.jeq 8#8) true = some 8#8 ∧ firstInvalid (.jeq 8#8) false = none ∧
    (signals (.jeq 8#8) false).pcSource = .plus 2 ∧ firstInvalid (.jmp 7#8) true = none ∧
    (signals (.jmp 7#8) true).pcSource = .register 7#8 ∧ (signals (.jmp 7#8) true).memory = none ∧
    (signals (.jmp 7#8) true).aluOp = none ∧
    firstInvalid (.pop 7#8) true = none ∧ (signals (.pop 7#8) true).memory = some .stackR ∧
    firstInvalid (.push 7#8) true = none ∧ (signals (.push 7#8) true).memory = some .stackW ∧
    firstInvalid (.add 7#8 0#8) true = none ∧ (signals (.add 7#8 0#8) true).aluOp = some .add ∧
    firstInvalid (.mul 7#8 7#8) true = none ∧ (signals (.mul 7#8 7#8) true).aluOp = some .mul ∧
    firstInvalid (.cmp 0#8 7#8) true = none ∧ (signals (.cmp 0#8 7#8) true).aluOp = some .cmp := by decide
/-- The register bytes of `LdiLoadsTheImmediate`, `PrnEmitsTheRegister`, `AddWrapsModulo256`, `MulKeepsTheLowByte`,
`CmpSetsFlagsByUnsignedOrder`, `AluFunctionsForEveryKind`, `PushDecrementsThenStores`, `PopLoadsThenIncrements`,
`PushThenPopRoundTrips`, `BranchesFollowTheLastCompare`, `OnlyCmpWritesTheFlags` and `RegisterIndexIsCheckedNotMasked`,
whose only hypotheses they are: 7 is the last valid byte and 8 the first invalid one, as `a` and as `b`. -/
theorem witness_register_bytes :
    (7#8 : Byte).toNat < 8 ∧ 8 ≤ (8#8 : Byte).toNat ∧ ((7#8 : Byte).toNat < 8 ∧ 8 ≤ (8#8 : Byte).toNat) ∧
    ((0#8 : Byte).toNat < 8 ∧ (7#8 : Byte).toNat < 8 ∧ (6#8 : Byte).toNat < 8) := by decide
/-- `AluFunctionsForEveryKind`, the unsupported kinds. -/
theorem witness_AluFunctions_unsupported : AluKind.other ≠ .add ∧ AluKind.other ≠ .mul ∧ AluKind.other ≠ .cmp := by decide
/-- `UnsupportedAluOpIsNeverLatched`: a step that latches a record. -/
theorem witness_UnsupportedAluOp :
    ∃ t, stepWith defaultOpcodeMap State.reset = .next t ∧ t.fault = some ⟨.illegalInstruction 0#8, 0⟩ :=
  ⟨_, rfl, by decide⟩
/-- `FetchSeesPushedBytes`: PUSH R2 at 0, then a fetch whose opcode byte is the pushed one. -/
theorem witness_FetchSeesPushedBytes_op :
    ∃ t, stepWith defaultOpcodeMap (launched [0x45#8, 0x02#8]) = .next t ∧
      (launched [0x45#8, 0x02#8]).running = true ∧ (launched [0x45#8, 0x02#8]).fault = none ∧
      (launched [0x45#8, 0x02#8]).pc + 2 < 256 ∧
      memGet (launched [0x45#8, 0x02#8]).mem 0 = defaultOpcodeMap.byte .push ∧
      memGet (launched [0x45#8, 0x02#8]).mem 1 = 2#8 ∧ (2#8 : Byte).toNat < 8 ∧
      (∃ l, fetch { t with pc := 243 } = .ok l) ∧ 243 = ((launched [0x45#8, 0x02#8]).x[7] - 1#8).toNat :=
  ⟨_, rfl, rfl, rfl, by decide, by decide, by decide, by decide, ⟨_, rfl⟩, by decide⟩
/-- `FetchSeesPushedBytes`: fetches whose operand bytes are the pushed one, R7 itself pushed. -/
theorem witness_FetchSeesPushedBytes_operands :
    ∃ t, stepWith defaultOpcodeMap (launched [0x45#8, 0x07#8]) = .next t ∧ (7#8 : Byte).toNat < 8 ∧
      (∃ l, fetch { t with pc := 242 } = .ok l) ∧ 242 + 1 = ((launched [0x45#8, 0x07#8]).x[7] - 1#8).toNat ∧
      (∃ l, fetch { t with pc := 241 } = .ok l) ∧ 241 + 2 = ((launched [0x45#8, 0x07#8]).x[7] - 1#8).toNat :=
  ⟨_, rfl, by decide, ⟨_, rfl⟩, by decide, ⟨_, rfl⟩, by decide⟩
/-- `JmpSetsPcToTheRegister`: a target of 254 (R6) in a running state, and a bad register byte. -/
theorem witness_JmpSetsPc :
    (6#8 : Byte).toNat < 8 ∧ 254 ≤ ((withRegs State.reset [(6, 254#8)]).x[6]).toNat ∧
    (withRegs State.reset [(6, 254#8)]).running = true ∧ (withRegs State.reset [(6, 254#8)]).fault = none ∧
    8 ≤ (8#8 : Byte).toNat := by decide
/-- `JeqIsTakenExactlyOnEqual` and `JneIsTakenExactlyOnUnequal`: E set and E clear, the operand valid and not. -/
theorem witness_branches :
    State.reset.fl = .equal ∧ ({ State.reset with fl := .less } : State).fl ≠ .equal ∧
    ({ State.reset with fl := .clear } : State).fl ≠ .equal ∧ (7#8 : Byte).toNat < 8 ∧ 8 ≤ (8#8 : Byte).toNat := by decide
/-- `BranchesFollowTheLastCompare`: equal operands and unequal ones. -/
theorem witness_BranchesFollowTheLastCompare :
    State.reset.x[0] = State.reset.x[1] ∧ State.reset.x[0] ≠ State.reset.x[7] := by decide
/-- `RegistersChangeOnlyAsDestinations`: instructions that answer a next state, and registers outside their
destinations. -/
theorem witness_RegistersChange :
    (∃ t, exec (.pop 6#8) State.reset = .next t) ∧ ((5 : Fin 8).val ≠ (6#8 : Byte).toNat ∧ (5 : Fin 8).val ≠ 7) ∧
    (∃ t, exec (.push 7#8) State.reset = .next t) ∧ (6 : Fin 8).val ≠ 7 ∧
    (∃ t, exec (.ldi 7#8 1#8) State.reset = .next t) ∧ (6 : Fin 8).val ≠ (7#8 : Byte).toNat ∧
    (∃ t, exec (.add 7#8 7#8) State.reset = .next t) ∧ (∃ t, exec (.mul 7#8 7#8) State.reset = .next t) :=
  ⟨⟨_, rfl⟩, by decide, ⟨_, rfl⟩, by decide, ⟨_, rfl⟩, by decide, ⟨_, rfl⟩, ⟨_, rfl⟩⟩
/-- `OnlyPushWritesMemory`: the address stored to is 243, and 242 and 244 are others. -/
theorem witness_OnlyPushWritesMemory :
    (∃ t, exec (.push 0#8) State.reset = .next t) ∧
    memAddress .stackW (setSp State.reset (sub8 (sp State.reset) 1#8)) = 243 ∧
    (242 : Nat) ≠ memAddress .stackW (setSp State.reset (sub8 (sp State.reset) 1#8)) ∧
    (244 : Nat) ≠ memAddress .stackW (setSp State.reset (sub8 (sp State.reset) 1#8)) := ⟨⟨_, rfl⟩, by decide⟩
/-- `FlagsRunningOutputAndLatchFrame`: an instruction that is none of CMP, HLT and PRN, and one that latches a fault. -/
theorem witness_Frame :
    (∃ t, exec (.add 0#8 1#8) State.reset = .next t) ∧ (∀ a b, Instr.add 0#8 1#8 ≠ .cmp a b) ∧
    Instr.add 0#8 1#8 ≠ .hlt ∧ (∀ a, Instr.add 0#8 1#8 ≠ .prn a) ∧
    (∃ t, exec (.add 0#8 8#8) State.reset = .next t ∧ t.fault ≠ State.reset.fault) :=
  ⟨⟨_, rfl⟩, (by intro a b h; cases h), by decide, (by intro a h; cases h), ⟨_, rfl, by decide⟩⟩
/-- `OnlyCmpWritesTheFlags`: a step that changes FL. -/
theorem witness_OnlyCmpWritesTheFlags :
    ∃ t, stepWith defaultOpcodeMap (launched [0xA7#8, 0x00#8, 0x07#8]) = .next t ∧
      t.fl ≠ (launched [0xA7#8, 0x00#8, 0x07#8]).fl := ⟨_, rfl, by decide⟩
/-- `OnlyHltChangesRunning`: a step that changes `running`. -/
theorem witness_OnlyHltChangesRunning :
    ∃ t, stepWith defaultOpcodeMap (launched [0x01#8]) = .next t ∧ t.running ≠ (launched [0x01#8]).running :=
  ⟨_, rfl, by decide⟩
/-- `OutputOnlyGrowsByPrn`: a step that appends. -/
theorem witness_OutputOnlyGrowsByPrn :
    ∃ t, stepWith defaultOpcodeMap (launched [0x47#8, 0x07#8]) = .next t ∧ t.out = [244#8] := ⟨_, rfl, by decide⟩
/-- `LessAndGreaterAreNeverRead`: a JNE with L set. -/
theorem witness_LessAndGreaterAreNeverRead :
    ∃ t, stepWith defaultOpcodeMap { launched [0x56#8, 0x07#8] with fl := .less } = .next t ∧ t.pc = 244 :=
  ⟨_, rfl, by decide⟩
/-- `OutputIsNeverReadBack`: a PRN. -/
theorem witness_OutputIsNeverReadBack :
    ∃ t, stepWith defaultOpcodeMap (launched [0x47#8, 0x07#8]) = .next t ∧ t.out ≠ [] := ⟨_, rfl, by decide⟩
/-- `UnnamedRegistersAreNeverRead`: R5 under PUSH R6. -/
theorem witness_UnnamedRegistersAreNeverRead :
    (∀ o ∈ (Instr.push 6#8).regOperands, o.toNat ≠ (5 : Fin 8).val) ∧ (5 : Fin 8).val ≠ 7 ∧
    (∃ t, exec (.push 6#8) State.reset = .next t) := ⟨by decide, by decide, ⟨_, rfl⟩⟩
/-- `OtherMemoryIsNeverRead`: a POP, and the byte at 3. -/
theorem witness_OtherMemoryIsNeverRead :
    (3 : Nat) ≠ (launched [0x46#8, 0x00#8]).pc ∧ (3 : Nat) ≠ (launched [0x46#8, 0x00#8]).pc + 1 ∧
    (3 : Nat) ≠ (launched [0x46#8, 0x00#8]).pc + 2 ∧ (3 : Nat) ≠ (sp (launched [0x46#8, 0x00#8])).toNat ∧
    (∃ t, stepWith defaultOpcodeMap (launched [0x46#8, 0x00#8]) = .next t) :=
  ⟨by decide, by decide, by decide, by decide, ⟨_, rfl⟩⟩
/-- `MemoryReadsWhatWasWritten`: the last address and the first one outside. -/
theorem witness_MemoryReadsWhatWasWritten : (255 : Nat) < 256 ∧ 256 ≤ (256 : Nat) := by decide
/-- `MachineInvariantIsKeptByEveryStep`: the state after reset meets the invariant, and its step answers a next state. -/
theorem witness_MachineInvariant :
    Inv defaultOpcodeMap State.reset ∧ ∃ t, stepWith defaultOpcodeMap State.reset = .next t :=
  ⟨⟨rfl, by decide, by decide, by intro r h; cases h⟩, ⟨_, rfl⟩⟩
/-- `EveryRunOfEveryImageStaysLegal`: an image that loads and runs one step. -/
theorem witness_EveryRunOfEveryImage :
    ∃ s t, launch [0x45#8, 0x07#8] = .ok s ∧ runWith defaultOpcodeMap 1 s = some t := ⟨_, _, rfl, rfl⟩
/-- `LaunchPutsTheImageAtZero`: an image of 256 bytes and one of 257. -/
theorem witness_LaunchPutsTheImageAtZero :
    (List.replicate 256 (1#8 : Byte)).length ≤ 256 ∧ 256 < (List.replicate 257 (1#8 : Byte)).length :=
  ⟨Nat.le_of_eq List.length_replicate, by rw [List.length_replicate]; decide⟩
/-- `RunHasAtMostOneEnd`: a run that halts, and one that ends faulted. -/
theorem witness_RunHasAtMostOneEnd :
    (∃ t, HaltsIn defaultOpcodeMap 1 (launched [0x01#8]) t) ∧
    (∃ t r, FaultsIn defaultOpcodeMap 1 (launched [0xA1#8]) t r) :=
  ⟨⟨_, rfl, rfl⟩, ⟨_, _, rfl, rfl⟩⟩
/-- `FaultPortsShowTheLatch`: no fault, and each kind latched, the memory fault with address and pc 256. -/
theorem witness_FaultPortsShowTheLatch :
    State.reset.fault = none ∧
    (takeFault (.outOfBoundsMemory 256) { State.reset with pc := 256 }).fault = some ⟨.outOfBoundsMemory 256, 256⟩ ∧
    (256 : Nat) < 512 ∧
    (takeFault (.outOfBoundsRegister 255#8) State.reset).fault = some ⟨.outOfBoundsRegister 255#8, 0⟩ ∧
    (takeFault (.illegalInstruction 0#8) State.reset).fault = some ⟨.illegalInstruction 0#8, 0⟩ ∧
    (takeFault (.unsupportedAluOp .other) State.reset).fault = some ⟨.unsupportedAluOp .other, 0⟩ := by decide
/-- `HostLoadsOnlyBeforeTheFirstStep`: a block that steps, and one that still loads. -/
theorem witness_HostLoads :
    (∃ c, blockStep defaultOpcodeMap blockReset = .next c) ∧ blockReset.loading = true := ⟨⟨_, rfl⟩, rfl⟩
/-- `CommentsAndBlankLinesLoadNothing`: a blank line of every white-space character, and a comment without line feed
that holds a second `#`. -/
theorem witness_CommentsAndBlankLines :
    (∀ c ∈ [' ', '\t', '\r'], c = ' ' ∨ c = '\t' ∨ c = '\r') ∧ '\n' ∉ [' ', '#', 'x'] := by simp
/-- `EachSurvivingLineGivesOneByte`: white space on both sides, eight digits, and malformed tokens: one digit, and
eight characters one of which is no digit. -/
theorem witness_EachSurvivingLine :
    (∀ c ∈ [' '] ++ ['\t'], c = ' ' ∨ c = '\t' ∨ c = '\r') ∧ (List.replicate 8 true).length = 8 ∧
    ['1'] ≠ [] ∧ '#' ∉ ['1'] ∧
    (∀ c, ['1'].head? = some c ∨ ['1'].getLast? = some c → c ≠ ' ' ∧ c ≠ '\t' ∧ c ≠ '\r') ∧
    ¬ (['1'].length = 8 ∧ ∀ c ∈ ['1'], c = '0' ∨ c = '1') ∧
    ¬ (['1', '0', '1', '0', '1', '0', '1', '2'].length = 8 ∧
      ∀ c ∈ ['1', '0', '1', '0', '1', '0', '1', '2'], c = '0' ∨ c = '1') :=
  ⟨by simp, rfl, by simp, by simp, by simp [eq_comm], by simp, by simp⟩

end Sys2Proof.Tests
end

section
/-! SUPPORT. What a handler that completes has done: the inversion of the operations it is made of, and the one form
`exec` has for every instruction, its handler under the pc sequencer. -/

namespace Sys2Proof.Machine

/-- A computation that completes completes its first part, then the rest. -/
theorem exceptBind_eq_ok {ε α β : Type} {x : Except ε α} {f : α → Except ε β} {b : β} (h : (x >>= f) = .ok b) :
    ∃ a, x = .ok a ∧ f a = .ok b := by
  cases x with
  | error e => cases h
  | ok a => exact ⟨a, rfl, h⟩

/-- A register write that completes went through a valid index and set that register only (R23). -/
theorem writeReg_eq_ok {s t : State} {i v : Byte} (h : writeReg s i v = .ok t) :
    ∃ hi : i.toNat < 8, t = { s with x := s.x.set i.toNat v hi } := by
  rcases Nat.lt_or_ge i.toNat 8 with hi | hi
  · rw [writeReg_valid s v hi] at h; cases h; exact ⟨hi, rfl⟩
  · rw [writeReg_invalid s v hi] at h; cases h

/-- A memory write that completes was inside the address space and set that cell only (R51). -/
theorem memWrite_eq_ok {s t : State} {addr : Nat} {v : Byte} (h : memWrite s addr v = .ok t) :
    addr < 256 ∧ t = { s with mem := memSet s.mem addr v } := by
  rcases Nat.lt_or_ge addr 256 with ha | ha
  · rw [memWrite_of_lt s v ha] at h; cases h; exact ⟨ha, rfl⟩
  · rw [memWrite_of_ge s v ha] at h; cases h

/-- A jump that completes read a valid register and set pc only (R89, R183). -/
theorem jumpToReg_eq_ok {s t : State} {a : Byte} {p : PcUpdate} (h : jumpToReg s a = .ok (t, p)) :
    ∃ ha : a.toNat < 8, t = { s with pc := (s.x[a.toNat]'ha).toNat } ∧ p = .pcSet := by
  rcases Nat.lt_or_ge a.toNat 8 with ha | ha
  · rw [jumpToReg_valid s ha] at h; cases h; exact ⟨ha, rfl, rfl⟩
  · rw [jumpToReg_invalid s ha] at h; cases h

/-! A conditional branch is a jump where it is taken, and otherwise advances over itself (R184, R186). -/

theorem handleJeq_taken {s : State} (a : Byte) (h : eSet s = true) : handleJeq a s = jumpToReg s a := by
  simp [handleJeq, h]

theorem handleJeq_not_taken {s : State} (a : Byte) (h : eSet s = false) : handleJeq a s = .ok (s, .advance 2) := by
  simp [handleJeq, h]

theorem handleJne_taken {s : State} (a : Byte) (h : eSet s = false) : handleJne a s = jumpToReg s a := by
  simp [handleJne, h]

theorem handleJne_not_taken {s : State} (a : Byte) (h : eSet s = true) : handleJne a s = .ok (s, .advance 2) := by
  simp [handleJne, h]

/-- An ALU instruction that completes had two valid registers (R118). -/
theorem aluInstr_ok_valid {k : AluKind} {a b : Byte} {s t : State} {p : PcUpdate}
    (h : aluInstr k a b s = .ok (t, p)) : a.toNat < 8 ∧ b.toNat < 8 := by
  rcases Nat.lt_or_ge a.toNat 8 with ha | ha
  · rcases Nat.lt_or_ge b.toNat 8 with hb | hb
    · exact ⟨ha, hb⟩
    · rw [aluInstr_invalid_b k s ha hb] at h; cases h
  · rw [aluInstr_invalid_a k s ha] at h; cases h

/-- The handler of each instruction (R13, R115). -/
def handlerOf : Instr → State → Handled
  | .hlt => handleHlt
  | .ldi a b => handleLdi a b
  | .prn a => handlePrn a
  | .add a b => aluInstr .add a b
  | .mul a b => aluInstr .mul a b
  | .push a => handlePush a
  | .pop a => handlePop a
  | .cmp a b => aluInstr .cmp a b
  | .jmp a => fun s => jumpToReg s a
  | .jeq a => handleJeq a
  | .jne a => handleJne a

/-- Every instruction is its handler under the pc sequencer (R115, R116). -/
theorem exec_eq_sequencePc (i : Instr) (s : State) : exec i s = sequencePc s (handlerOf i s) := by
  cases i <;> rfl

end Sys2Proof.Machine
end

section
/-! SUPPORT. The statements of spec/10_state.md about FL and about register indices. -/

namespace Sys2Proof.Machine

/-! ### Who writes FL (R31) -/

/-- A jump that completes leaves FL as it was. -/
theorem jumpToReg_fl {s u : State} {a : Byte} {p : PcUpdate} (h : jumpToReg s a = .ok (u, p)) : u.fl = s.fl := by
  obtain ⟨_, rfl, _⟩ := jumpToReg_eq_ok h
  rfl

/-- A handler other than CMP's that completes leaves FL as it was. -/
theorem handlerOf_fl {i : Instr} (hi : ∀ a b, i ≠ .cmp a b) {s u : State} {p : PcUpdate}
    (h : handlerOf i s = .ok (u, p)) : u.fl = s.fl := by
  cases i with
  | hlt => cases h; rfl
  | ldi a b =>
    obtain ⟨t, ht, h⟩ := exceptBind_eq_ok h
    obtain ⟨_, rfl⟩ := writeReg_eq_ok ht
    cases h; rfl
  | prn a =>
    obtain ⟨v, _, h⟩ := exceptBind_eq_ok h
    cases h; rfl
  | add a b =>
    obtain ⟨ha, hb⟩ := aluInstr_ok_valid h
    cases (aluInstr_add s ha hb).symm.trans h; rfl
  | mul a b =>
    obtain ⟨ha, hb⟩ := aluInstr_ok_valid h
    cases (aluInstr_mul s ha hb).symm.trans h; rfl
  | push a =>
    obtain ⟨v, _, h⟩ := exceptBind_eq_ok h
    obtain ⟨t, ht, h⟩ := exceptBind_eq_ok h
    obtain ⟨_, rfl⟩ := memWrite_eq_ok ht
    cases h; rfl
  | pop a =>
    obtain ⟨v, _, h⟩ := exceptBind_eq_ok h
    obtain ⟨t, ht, h⟩ := exceptBind_eq_ok h
    obtain ⟨_, rfl⟩ := writeReg_eq_ok ht
    cases h; rfl
  | cmp a b => exact absurd rfl (hi a b)
  | jmp a => exact jumpToReg_fl h
  | jeq a =>
    cases he : eSet s with
    | true => exact jumpToReg_fl ((handleJeq_taken a he).symm.trans h)
    | false => cases (handleJeq_not_taken a he).symm.trans h; rfl
  | jne a =>
    cases he : eSet s with
    | true => cases (handleJne_not_taken a he).symm.trans h; rfl
    | false => exact jumpToReg_fl ((handleJne_taken a he).symm.trans h)

/-- An instruction other than CMP leaves FL as it was, whether it completes or takes a fault. -/
theorem exec_fl_of_ne_cmp {i : Instr} (hi : ∀ a b, i ≠ .cmp a b) {s t : State} (h : exec i s = .next t) :
    t.fl = s.fl := by
  rw [exec_eq_sequencePc] at h
  obtain ⟨u, n, hu, rfl⟩ | ht | ⟨f, _, rfl⟩ := sequencePc_eq_next h
  · exact (handlerOf_fl hi hu : u.fl = s.fl)
  · exact handlerOf_fl hi ht
  · exact takeFault_fl f s

/-! ### What CMP writes to FL (R158, R159) -/

theorem compareFlags_eq_less {p q : Byte} : compareFlags p q = .less ↔ p.toNat < q.toNat := by
  unfold compareFlags
  split_ifs <;> simp <;> omega

theorem compareFlags_eq_greater {p q : Byte} : compareFlags p q = .greater ↔ q.toNat < p.toNat := by
  unfold compareFlags
  split_ifs <;> simp <;> omega

theorem compareFlags_eq_equal {p q : Byte} : compareFlags p q = .equal ↔ p.toNat = q.toNat := by
  unfold compareFlags
  split_ifs <;> simp <;> omega

/-- CMP with two valid registers: its whole next state (R158). -/
theorem exec_cmp_valid {a b : Byte} (s : State) (ha : a.toNat < 8) (hb : b.toNat < 8) :
    exec (.cmp a b) s =
      .next { s with fl := compareFlags (s.x[a.toNat]'ha) (s.x[b.toNat]'hb), pc := s.pc + 3 } := by
  rw [exec_eq_sequencePc, handlerOf, aluInstr_cmp s ha hb, sequencePc_advance]

/-- A step that changes FL fetched a CMP: a fault entry and every other instruction keep it. -/
theorem stepWith_fl_ne {m : OpcodeMap} {s t : State} (h : stepWith m s = .next t) (hfl : t.fl ≠ s.fl) :
    ∃ a b, fetchDecode m s = .ok (.cmp a b) := by
  obtain ⟨_, _, ⟨f, _, rfl⟩ | ⟨i, hi, hx⟩⟩ := stepWith_next h
  · exact absurd (takeFault_fl f s) hfl
  · by_contra hc
    exact hfl (exec_fl_of_ne_cmp (fun a b hab => hc ⟨a, b, hab ▸ hi⟩) hx)

/-- Settles O34: a step that changes FL ran a CMP, since fault entry and the other ten handlers keep FL; and CMP's flag
is that of the unsigned order. -/
theorem onlyCmpWritesTheFlags : Obligations.OnlyCmpWritesTheFlags := by
  refine ⟨fun m s t h hfl => stepWith_fl_ne h hfl, fun a b s ha hb => ⟨_, exec_cmp_valid s ha hb, ?_⟩⟩
  exact ⟨compareFlags_eq_less, compareFlags_eq_greater, compareFlags_eq_equal, compareFlags_ne_clear _ _⟩

/-! ### Register indices (R23, R85) -/

theorem validReg_iff {i : Byte} : validReg i = true ↔ i.toNat < 8 := by
  simp [validReg]

/-- The state a valid register write gives: the register reads back, and every other register is as it was. -/
theorem writeReg_valid_reads_back {i : Byte} (s : State) (v : Byte) (hi : i.toNat < 8) :
    readReg { s with x := s.x.set i.toNat v hi } i = .ok v ∧
      ∀ r : Fin 8, r.val ≠ i.toNat → (s.x.set i.toNat v hi)[r] = s.x[r] := by
  constructor
  · rw [readReg_valid _ hi, Vector.getElem_set_self]
  · intro r hr
    exact Vector.getElem_set_ne hi r.isLt hr.symm

/-- Settles O41: the index is valid exactly below 8, and the read and the write answer by that check alone. -/
theorem registerIndexIsCheckedNotMasked : Obligations.RegisterIndexIsCheckedNotMasked := by
  intro s i v
  refine ⟨validReg_iff.trans Nat.lt_succ_iff, fun hi => ⟨readReg_valid s hi, ?_⟩, fun hi => ?_⟩
  · obtain ⟨hread, hother⟩ := writeReg_valid_reads_back s v hi
    exact ⟨_, writeReg_valid s v hi, hread, rfl, hother⟩
  · exact ⟨readReg_invalid s hi, writeReg_invalid s v hi⟩

end Sys2Proof.Machine
end

section
/-! SUPPORT. The statements of spec/20_memory.md about the primitives `MemRead` and `MemWrite`. -/

namespace Sys2Proof.Machine

/-! ### What is read after a write (R51) -/

/-- Setting one cell changes what no other address reads, in range or out of it. -/
theorem memRead_memSet_other {addr b : Nat} (s : State) (v : Byte) (h : b ≠ addr) :
    memRead { s with mem := memSet s.mem addr v } b = memRead s b := by
  simp only [memRead, memGet_memSet_other s.mem addr b v h.symm]

/-- The state a memory write in range gives: the cell reads back, and every other address reads as before. -/
theorem memWrite_in_range_reads_back {addr : Nat} (s : State) (v : Byte) (ha : addr < 256) :
    memRead { s with mem := memSet s.mem addr v } addr = .ok v ∧
      ∀ b, b ≠ addr → memRead { s with mem := memSet s.mem addr v } b = memRead s b := by
  constructor
  · rw [memRead_of_lt _ ha, memGet_memSet_same]
  · exact fun b hb => memRead_memSet_other s v hb

/-- Settles O42: below 256 the write sets its own cell and no other, and from 256 up the range check alone answers. -/
theorem memoryReadsWhatWasWritten : Obligations.MemoryReadsWhatWasWritten := by
  intro s addr v
  refine ⟨fun ha => ⟨memRead_of_lt s ha, ?_⟩, fun ha => ⟨memRead_of_ge s ha, memWrite_of_ge s v ha⟩⟩
  obtain ⟨hread, hother⟩ := memWrite_in_range_reads_back s v ha
  exact ⟨_, memWrite_of_lt s v ha, hread, rfl, hother⟩

end Sys2Proof.Machine
end

section
/-! SUPPORT. The statements of spec/30_encoding.md about operand bytes a format does not use and about opcode bytes
outside the map, with what fetch, decode and step answer on a byte of the map and on a byte outside it. -/

namespace Sys2Proof

/-! ### Which operand bytes an instruction keeps (R81, R91) -/

/-- Format F1 has no operand byte. -/
theorem build_of_f1 {k : Mnemonic} (hk : formatOf k = .f1) (a b a' b' : Byte) : build k a b = build k a' b' := by
  cases k with
  | hlt => rfl
  | _ => cases hk

/-- Format F2R has no second operand byte: the formats with one are excluded, and every other name drops it. -/
theorem build_of_f2r {k : Mnemonic} (hk : formatOf k = .f2r) (a b b' : Byte) : build k a b = build k a b' := by
  cases k with
  | ldi | add | mul | cmp => cases hk
  | _ => rfl

/-- Settles O4: a byte of the map decodes to what `build` makes of its name and the operand bytes, and `build` drops the
bytes the format does not use. -/
theorem unusedOperandBytesAreIgnored : Obligations.UnusedOperandBytesAreIgnored := by
  intro m k a b a' b'
  refine ⟨fun hk => ?_, fun hk => ?_, build k a b, decode_byte m k a b⟩
  · rw [decode_byte, decode_byte, build_of_f1 hk a b a' b']
  · rw [decode_byte, decode_byte, build_of_f2r hk a b b']

/-! ### How many bytes are illegal (R86, R90) -/

/-- A lookup finds something exactly when the byte is in the map. -/
theorem lookupOpcode_isSome {m : OpcodeMap} {op : Byte} :
    (lookupOpcode m op).isSome = true ↔ ∃ k, m.byte k = op := by
  rw [Option.isSome_iff_exists]
  constructor
  · rintro ⟨k, hk⟩; exact ⟨k, lookupOpcode_some hk⟩
  · rintro ⟨k, rfl⟩; exact ⟨k, lookupOpcode_byte m k⟩

/-- The eleven opcode bytes of a map, as numbers. -/
def OpcodeMap.opcodes (m : OpcodeMap) : List Nat := Mnemonic.all.map fun k => (m.byte k).toNat

theorem OpcodeMap.mem_opcodes {m : OpcodeMap} {n : Nat} : n ∈ m.opcodes ↔ ∃ k, (m.byte k).toNat = n := by
  simp [opcodes, Mnemonic.mem_all]

theorem OpcodeMap.length_opcodes (m : OpcodeMap) : m.opcodes.length = 11 := rfl

/-- They are different, since the map is injective (R86). -/
theorem OpcodeMap.nodup_opcodes (m : OpcodeMap) : m.opcodes.Nodup :=
  List.Nodup.map (fun _ _ h => m.inj _ _ (BitVec.eq_of_toNat_eq h)) (by decide)

/-- The numbers of 0..255 whose byte a lookup finds are the opcodes of the map. -/
theorem legal_bytes_perm_opcodes (m : OpcodeMap) :
    ((List.range 256).filter fun n => (lookupOpcode m (BitVec.ofNat 8 n)).isSome).Perm m.opcodes := by
  refine (List.perm_ext_iff_of_nodup (List.nodup_range.filter _) m.nodup_opcodes).2 fun n => ?_
  rw [List.mem_filter, List.mem_range, lookupOpcode_isSome, OpcodeMap.mem_opcodes]
  constructor
  · rintro ⟨hn, k, hk⟩
    exact ⟨k, by rw [hk, BitVec.toNat_ofNat, Nat.mod_eq_of_lt hn]⟩
  · rintro ⟨k, rfl⟩
    exact ⟨(m.byte k).isLt, k, by rw [BitVec.ofNat_toNat, BitVec.setWidth_eq]⟩

/-- Under every opcode map 245 of the 256 bytes are illegal: all but the eleven of the map (R90). -/
theorem illegal_bytes_count (m : OpcodeMap) :
    (List.range 256).countP (fun n => (lookupOpcode m (BitVec.ofNat 8 n)).isNone) = 245 := by
  have hlegal : (List.range 256).countP (fun n => (lookupOpcode m (BitVec.ofNat 8 n)).isSome) = 11 := by
    rw [List.countP_eq_length_filter, (legal_bytes_perm_opcodes m).length_eq, m.length_opcodes]
  have hall := List.length_eq_countP_add_countP (l := List.range 256)
    fun n => (lookupOpcode m (BitVec.ofNat 8 n)).isSome
  simp only [List.length_range, Bool.not_eq_true, Option.isSome_eq_false_iff, Bool.decide_eq_true] at hall
  omega

end Sys2Proof

namespace Sys2Proof.Machine

/-! ### Fetch, decode and step by the byte at pc (R90, R113, R119) -/

/-- Fetch and decode where the byte at pc is outside the map. -/
theorem fetchDecode_of_illegal {m : OpcodeMap} {s : State} (hpc : s.pc + 2 < 256)
    (h : ∀ k, m.byte k ≠ memGet s.mem s.pc) :
    fetchDecode m s = .error (.illegalInstruction (memGet s.mem s.pc)) := by
  simp only [fetchDecode, fetch_of_lt hpc, bind, Except.bind, decode_illegal h]

/-- Fetch and decode where the three bytes at pc decode. -/
theorem fetchDecode_of_decode {m : OpcodeMap} {s : State} {i : Instr} (hpc : s.pc + 2 < 256)
    (h : decode m (memGet s.mem s.pc) (memGet s.mem (s.pc + 1)) (memGet s.mem (s.pc + 2)) = .ok i) :
    fetchDecode m s = .ok i := by
  simp only [fetchDecode, fetch_of_lt hpc, bind, Except.bind, h]

/-- With the gate open, a fault of fetch or decode is taken. -/
theorem stepWith_of_fetchDecode_error {m : OpcodeMap} {s : State} {f : CoreFault} (hr : s.running = true)
    (hf : s.fault = none) (h : fetchDecode m s = .error f) : stepWith m s = .next (takeFault f s) := by
  simp only [stepWith, noStep_none.2 ⟨hr, hf⟩, h]

/-- With the gate open, the instruction at pc is executed. -/
theorem stepWith_of_fetchDecode_ok {m : OpcodeMap} {s : State} {i : Instr} (hr : s.running = true)
    (hf : s.fault = none) (h : fetchDecode m s = .ok i) : stepWith m s = exec i s := by
  simp only [stepWith, noStep_none.2 ⟨hr, hf⟩, h]

/-- The step on a byte of the map: the instruction the byte names, on the two bytes after it. -/
theorem stepWith_of_opcode {m : OpcodeMap} {s : State} {k : Mnemonic} (hr : s.running = true) (hf : s.fault = none)
    (hpc : s.pc + 2 < 256) (hk : m.byte k = memGet s.mem s.pc) :
    stepWith m s = exec (build k (memGet s.mem (s.pc + 1)) (memGet s.mem (s.pc + 2))) s :=
  stepWith_of_fetchDecode_ok hr hf (fetchDecode_of_decode hpc (hk ▸ decode_byte m k _ _))

/-- Settles O5: the step answers by whether the byte at pc is in the map; the count of illegal bytes is that of every
map, and R90's list is looked up byte by byte. -/
theorem illegalOpcodesFaultOthersDispatch : Obligations.IllegalOpcodesFaultOthersDispatch := by
  refine ⟨fun m s hr hf hpc => ⟨fun hill => ?_, fun k hk => ?_⟩, illegal_bytes_count defaultOpcodeMap,
    by decide⟩
  · exact stepWith_of_fetchDecode_error hr hf (fetchDecode_of_illegal hpc hill)
  · exact stepWith_of_opcode hr hf hpc hk

end Sys2Proof.Machine
end

section
/-! SUPPORT. The statements of spec/40_execution_cycle.md about the fetch unit. -/

namespace Sys2Proof.Machine

/-- A fault of the fetch unit ends fetch and decode before the opcode is examined (R111). -/
theorem fetchDecode_of_fetch_error {m : OpcodeMap} {s : State} {f : CoreFault} (h : fetch s = .error f) :
    fetchDecode m s = .error f := by
  simp only [fetchDecode, h, bind, Except.bind]

/-- Settles O8: the fetch reads or faults by where pc lies, the first address outside memory being 256 at both edges,
and the step takes a fetch fault by latching it alone. -/
theorem fetchReadsThreeBytesInEveryStep : Obligations.FetchReadsThreeBytesInEveryStep := by
  intro s
  refine ⟨fetch_of_lt, fetch_of_ge, fun h h1 => ?_, fun h h2 => ?_, fun m f hr hf h => ?_⟩
  · have hedge : s.pc + 1 = 256 := by omega
    rw [hedge, fetch_at_edge h (by omega)]
  · have hedge : s.pc + 2 = 256 := by omega
    rw [hedge, fetch_at_edge (by omega) h2]
  · exact stepWith_of_fetchDecode_error hr hf (fetchDecode_of_fetch_error h)

end Sys2Proof.Machine
end

section
/-! SUPPORT. The statements of spec/41_data_movement.md about LDI and PRN, with the encoding of every name as `build`
gives it and the fault of a handler as the instruction takes it. -/

namespace Sys2Proof.Machine

/-- Every name is encoded as its table row says: under every map its byte decodes to what `build` makes of the operand
bytes (R81, R91). -/
theorem encodedAs_build (k : Mnemonic) :
    EncodedAs k (formatOf k) (lengthOf k) (defaultOpcodeMap.byte k) (build k) :=
  ⟨rfl, rfl, rfl, fun m a b => decode_byte m k a b⟩

/-- An instruction whose handler raises a fault takes it on the state before the step (R117). -/
theorem exec_of_handler_error {i : Instr} {s : State} {f : CoreFault} (h : handlerOf i s = .error f) :
    exec i s = .next { s with fault := some ⟨f, s.pc⟩ } := by
  rw [exec_eq_sequencePc, h, sequencePc_error, takeFault]

/-! ### The two handlers (R140, R142) -/

theorem handleLdi_valid {a : Byte} (b : Byte) (s : State) (ha : a.toNat < 8) :
    handleLdi a b s = .ok ({ s with x := s.x.set a.toNat b ha }, .advance 3) := by
  simp only [handleLdi, writeReg_valid s b ha, bind, pure, Except.bind, Except.pure]

theorem handleLdi_invalid {a : Byte} (b : Byte) (s : State) (ha : 8 ≤ a.toNat) :
    handleLdi a b s = .error (.outOfBoundsRegister a) := by
  simp only [handleLdi, writeReg_invalid s b ha, bind, Except.bind]

theorem handlePrn_valid {a : Byte} (s : State) (ha : a.toNat < 8) :
    handlePrn a s = .ok (emit s (s.x[a.toNat]'ha), .advance 2) := by
  simp only [handlePrn, readReg_valid s ha, bind, pure, Except.bind, Except.pure]

theorem handlePrn_invalid {a : Byte} (s : State) (ha : 8 ≤ a.toNat) :
    handlePrn a s = .error (.outOfBoundsRegister a) := by
  simp only [handlePrn, readReg_invalid s ha, bind, Except.bind]

/-! ### The two instructions -/

/-- Settles O14: the handler's one register write completes or faults by the register byte alone, and the sequencer adds
pc + 3 or fault entry. -/
theorem ldiLoadsTheImmediate : Obligations.LdiLoadsTheImmediate := by
  refine ⟨encodedAs_build .ldi, fun a b s => ⟨fun ha => ?_, fun ha => ?_⟩⟩
  · rw [exec_eq_sequencePc, handlerOf, handleLdi_valid b s ha, sequencePc_advance]
  · exact exec_of_handler_error (handleLdi_invalid b s ha)

/-- Settles O15: the handler's one register read comes before the value is emitted, so a bad register byte leaves the
output as it was. -/
theorem prnEmitsTheRegister : Obligations.PrnEmitsTheRegister := by
  refine ⟨encodedAs_build .prn, fun a s => ⟨fun ha => ?_, fun ha => ?_⟩⟩
  · rw [exec_eq_sequencePc, handlerOf, handlePrn_valid s ha, sequencePc_advance, emit]
  · exact exec_of_handler_error (handlePrn_invalid s ha)

end Sys2Proof.Machine
end

section
/-! SUPPORT. The statements of spec/42_alu.md: the shared ALU body for every kind, then ADD, MUL and CMP as that body
with their kind. -/

namespace Sys2Proof.Machine

/-! ### The kinds without a function (R151) -/

/-- The ALU refuses every kind but ADD, MUL and CMP, whatever the operands. -/
theorem alu_unsupported {k : AluKind} (hadd : k ≠ .add) (hmul : k ≠ .mul) (hcmp : k ≠ .cmp) (p q : Byte) :
    alu k p q = .error (.unsupportedAluOp k) := by
  cases k with
  | add => exact absurd rfl hadd
  | mul => exact absurd rfl hmul
  | cmp => exact absurd rfl hcmp
  | sub | and | or | xor | other => rfl

/-- On valid registers the shared body passes the ALU's refusal on, before any output is written. -/
theorem aluInstr_unsupported {k : AluKind} {a b : Byte} (s : State) (ha : a.toNat < 8) (hb : b.toNat < 8)
    (hadd : k ≠ .add) (hmul : k ≠ .mul) (hcmp : k ≠ .cmp) :
    aluInstr k a b s = .error (.unsupportedAluOp k) := by
  simp only [aluInstr, readReg_valid s ha, readReg_valid s hb, alu_unsupported hadd hmul hcmp, bind, Except.bind]

/-- Settles O19: ADD, MUL and CMP complete with their one output written, `add8`, `mul8` and `compareFlags` being the
functions of R151; any other kind is refused, and the refusal is taken on the state before the step. -/
theorem aluFunctionsForEveryKind : Obligations.AluFunctionsForEveryKind := by
  intro a b s ha hb
  refine ⟨?_, ?_, ?_, fun k hadd hmul hcmp => ?_⟩
  · rw [aluInstr_add s ha hb, sequencePc_advance, add8]
  · rw [aluInstr_mul s ha hb, sequencePc_advance, mul8]
  · rw [aluInstr_cmp s ha hb, sequencePc_advance, compareFlags]
  · rw [aluInstr_unsupported s ha hb hadd hmul hcmp, sequencePc_error, takeFault]

/-! ### The three instructions (R154, R156, R158) -/

/-- An instruction whose handler is the shared body faults on a bad `a`, and on a bad `b` where `a` is good; FL is then
unchanged like all else but the latch (R118). -/
theorem exec_alu_invalid {i : Instr} {k : AluKind} {a b : Byte} {s : State} (hi : handlerOf i s = aluInstr k a b s) :
    (8 ≤ a.toNat → exec i s = .next { s with fault := some ⟨.outOfBoundsRegister a, s.pc⟩ }) ∧
    (a.toNat < 8 → 8 ≤ b.toNat → exec i s = .next { s with fault := some ⟨.outOfBoundsRegister b, s.pc⟩ }) :=
  ⟨fun ha => exec_of_handler_error (hi.trans (aluInstr_invalid_a k s ha)),
    fun ha hb => exec_of_handler_error (hi.trans (aluInstr_invalid_b k s ha hb))⟩

/-- Settles O16: on valid registers ADD is the shared body with kind `add`; the faults are the shared body's. -/
theorem addWrapsModulo256 : Obligations.AddWrapsModulo256 := by
  refine ⟨encodedAs_build .add, fun a b s => ⟨fun ha hb => ?_, exec_alu_invalid (i := .add a b) rfl⟩⟩
  obtain ⟨hadd, -, -, -⟩ := aluFunctionsForEveryKind a b s ha hb
  exact (exec_eq_sequencePc _ s).trans hadd

/-- Settles O17: on valid registers MUL is the shared body with kind `mul`; the faults are the shared body's. -/
theorem mulKeepsTheLowByte : Obligations.MulKeepsTheLowByte := by
  refine ⟨encodedAs_build .mul, fun a b s => ⟨fun ha hb => ?_, exec_alu_invalid (i := .mul a b) rfl⟩⟩
  obtain ⟨-, hmul, -, -⟩ := aluFunctionsForEveryKind a b s ha hb
  exact (exec_eq_sequencePc _ s).trans hmul

/-- Settles O18: on valid registers CMP is the shared body with kind `cmp`; the faults are the shared body's. -/
theorem cmpSetsFlagsByUnsignedOrder : Obligations.CmpSetsFlagsByUnsignedOrder := by
  refine ⟨encodedAs_build .cmp, fun a b s => ⟨fun ha hb => ?_, exec_alu_invalid (i := .cmp a b) rfl⟩⟩
  obtain ⟨-, -, hcmp, -⟩ := aluFunctionsForEveryKind a b s ha hb
  exact (exec_eq_sequencePc _ s).trans hcmp

end Sys2Proof.Machine
end

section
/-! SUPPORT. The statements of spec/43_stack.md about PUSH and POP, with memory accesses through a byte address, which
never fault. -/

namespace Sys2Proof.Machine

/-! ### Moving SP by one (R12, R177) -/

/-- Subtracting 1 mod 256 is adding 255 mod 256. -/
theorem sub8_one (v : Byte) : sub8 v 1#8 = BitVec.ofNat 8 ((v.toNat + 255) % 256) := by
  rw [sub8, BitVec.toNat_ofNat, show v.toNat + 256 - 1 % 2 ^ 8 = v.toNat + 255 by omega]

/-- Adding 1 wraps at 256. -/
theorem add8_one (v : Byte) : add8 v 1#8 = BitVec.ofNat 8 ((v.toNat + 1) % 256) := rfl

/-! ### Memory through the stack pointer (R21, R53, R54) -/

/-- SP is the cell x[7]. -/
theorem sp_eq (s : State) : sp s = s.x[7] := rfl

@[simp] theorem memAddress_stackW (s : State) : memAddress .stackW s = (sp s).toNat := rfl

@[simp] theorem memAddress_stackR (s : State) : memAddress .stackR s = (sp s).toNat := rfl

/-- A load from a byte address is in range. -/
@[simp] theorem memRead_byte (s : State) (addr : Byte) : memRead s addr.toNat = .ok (memGet s.mem addr.toNat) :=
  memRead_of_lt s (byte_lt_memSize addr)

/-- A store to a byte address is in range. -/
@[simp] theorem memWrite_byte (s : State) (addr v : Byte) :
    memWrite s addr.toNat v = .ok { s with mem := memSet s.mem addr.toNat v } :=
  memWrite_of_lt s v (byte_lt_memSize addr)

/-! ### The two handlers (R170, R172) -/

/-- PUSH takes both the store's address and the stored byte from the registers `x1` with SP decremented (R175). -/
theorem handlePush_valid {a : Byte} (s : State) (ha : a.toNat < 8) :
    let x1 := s.x.set 7 (sub8 s.x[7] 1#8)
    handlePush a s = .ok ({ s with x := x1, mem := memSet s.mem (x1[7]).toNat x1[a.toNat] }, .advance 2) := by
  simp only [handlePush, readReg_valid _ ha, memAddress_stackW, memWrite_byte, sp_eq, setSp, bind, pure,
    Except.bind, Except.pure]

theorem handlePush_invalid {a : Byte} (s : State) (ha : 8 ≤ a.toNat) :
    handlePush a s = .error (.outOfBoundsRegister a) := by
  simp only [handlePush, readReg_invalid _ ha, bind, Except.bind]

/-- POP increments SP as it stands in the registers `x1` with the loaded byte written (R174). -/
theorem handlePop_valid {a : Byte} (s : State) (ha : a.toNat < 8) :
    let x1 := s.x.set a.toNat (memGet s.mem (s.x[7]).toNat)
    handlePop a s = .ok ({ s with x := x1.set 7 (add8 x1[7] 1#8) }, .advance 2) := by
  simp only [handlePop, memAddress_stackR, memRead_byte, writeReg_valid s _ ha, sp_eq, setSp, bind, pure,
    Except.bind, Except.pure]

theorem handlePop_invalid {a : Byte} (s : State) (ha : 8 ≤ a.toNat) :
    handlePop a s = .error (.outOfBoundsRegister a) := by
  simp only [handlePop, memAddress_stackR, memRead_byte, writeReg_invalid s _ ha, bind, Except.bind]

/-! ### The two instructions -/

/-- Settles O21: address and stored byte both come from the decremented registers; a bad register byte raises after the
decrement, and fault entry discards it. -/
theorem pushDecrementsThenStores : Obligations.PushDecrementsThenStores := by
  refine ⟨encodedAs_build .push, fun a s => ⟨fun ha => ?_, fun ha => ?_⟩⟩
  · rw [exec_eq_sequencePc, handlerOf, handlePush_valid s ha, sequencePc_advance, sub8_one]
  · exact exec_of_handler_error (handlePush_invalid s ha)

/-- Settles O22: SP is incremented as the register write left it, R7 included; the load through SP cannot fault, so a bad
register byte is POP's one fault. -/
theorem popLoadsThenIncrements : Obligations.PopLoadsThenIncrements := by
  refine ⟨encodedAs_build .pop, fun a s => ⟨fun ha => ?_, fun ha => ?_⟩⟩
  · rw [exec_eq_sequencePc, handlerOf, handlePop_valid s ha, sequencePc_advance, add8_one]
  · exact exec_of_handler_error (handlePop_invalid s ha)

end Sys2Proof.Machine
end

section
/-! SUPPORT. The statements of spec/44_control.md about HLT and JMP, with what a handler that completes may have changed
and the step at the edge of memory. -/

namespace Sys2Proof.Machine

/-! ### What a handler that completes changes (R115) -/

/-- A jump that completes changed at most pc. -/
theorem jumpToReg_frame {s u : State} {a : Byte} {p : PcUpdate} (h : jumpToReg s a = .ok (u, p)) :
    u = { s with pc := u.pc } := by
  obtain ⟨_, rfl, _⟩ := jumpToReg_eq_ok h
  rfl

/-- A conditional branch that completes, taken or not, changed at most pc. -/
theorem handleJeq_frame {s u : State} {a : Byte} {p : PcUpdate} (h : handleJeq a s = .ok (u, p)) :
    u = { s with pc := u.pc } := by
  cases he : eSet s with
  | true => exact jumpToReg_frame ((handleJeq_taken a he).symm.trans h)
  | false => cases (handleJeq_not_taken a he).symm.trans h; rfl

/-- The same for the opposite condition. -/
theorem handleJne_frame {s u : State} {a : Byte} {p : PcUpdate} (h : handleJne a s = .ok (u, p)) :
    u = { s with pc := u.pc } := by
  cases he : eSet s with
  | true => cases (handleJne_not_taken a he).symm.trans h; rfl
  | false => exact jumpToReg_frame ((handleJne_taken a he).symm.trans h)

/-- A handler that completes changed at most registers, memory and pc, unless it is that of HLT, CMP or PRN, each of
which changes one other component and nothing else. -/
theorem handlerOf_eq_ok {i : Instr} {s u : State} {p : PcUpdate} (h : handlerOf i s = .ok (u, p)) :
    u = { s with x := u.x, mem := u.mem, pc := u.pc } ∨
    (i = .hlt ∧ u = { s with running := false }) ∨
    (∃ a b, i = .cmp a b ∧ u = { s with fl := u.fl }) ∨
    (∃ a v, i = .prn a ∧ readReg s a = .ok v ∧ u = emit s v) := by
  cases i with
  | hlt => cases h; exact .inr (.inl ⟨rfl, rfl⟩)
  | ldi a b =>
    obtain ⟨t, ht, h⟩ := exceptBind_eq_ok h
    obtain ⟨_, rfl⟩ := writeReg_eq_ok ht
    cases h; exact .inl rfl
  | prn a =>
    obtain ⟨v, hv, h⟩ := exceptBind_eq_ok h
    cases h; exact .inr (.inr (.inr ⟨a, v, rfl, hv, rfl⟩))
  | add a b =>
    obtain ⟨ha, hb⟩ := aluInstr_ok_valid h
    cases (aluInstr_add s ha hb).symm.trans h; exact .inl rfl
  | mul a b =>
    obtain ⟨ha, hb⟩ := aluInstr_ok_valid h
    cases (aluInstr_mul s ha hb).symm.trans h; exact .inl rfl
  | push a =>
    obtain ⟨v, _, h⟩ := exceptBind_eq_ok h
    obtain ⟨t, ht, h⟩ := exceptBind_eq_ok h
    obtain ⟨_, rfl⟩ := memWrite_eq_ok ht
    cases h; exact .inl rfl
  | pop a =>
    obtain ⟨v, _, h⟩ := exceptBind_eq_ok h
    obtain ⟨t, ht, h⟩ := exceptBind_eq_ok h
    obtain ⟨_, rfl⟩ := writeReg_eq_ok ht
    cases h; exact .inl rfl
  | cmp a b =>
    obtain ⟨ha, hb⟩ := aluInstr_ok_valid h
    cases (aluInstr_cmp s ha hb).symm.trans h
    exact .inr (.inr (.inl ⟨a, b, rfl, rfl⟩))
  | jmp a => left; rw [jumpToReg_frame h]
  | jeq a => left; rw [handleJeq_frame h]
  | jne a => left; rw [handleJne_frame h]

/-! ### Who changes `running` (R181) -/

/-- HLT: its whole next state. -/
theorem exec_hlt (s : State) : exec .hlt s = .next { s with running := false, pc := s.pc + 1 } := by
  rw [exec_eq_sequencePc, handlerOf, handleHlt, sequencePc_advance]

/-- A handler other than HLT's that completes leaves `running` as it was. -/
theorem handlerOf_running {i : Instr} (hi : i ≠ .hlt) {s u : State} {p : PcUpdate}
    (h : handlerOf i s = .ok (u, p)) : u.running = s.running := by
  obtain hu | ⟨rfl, _⟩ | ⟨a, b, _, hu⟩ | ⟨a, v, _, _, rfl⟩ := handlerOf_eq_ok h
  · rw [hu]
  · exact absurd rfl hi
  · rw [hu]
  · exact emit_running s v

/-- An instruction other than HLT leaves `running` as it was, whether it completes or takes a fault. -/
theorem exec_running_of_ne_hlt {i : Instr} (hi : i ≠ .hlt) {s t : State} (h : exec i s = .next t) :
    t.running = s.running := by
  rw [exec_eq_sequencePc] at h
  obtain ⟨u, n, hu, rfl⟩ | ht | ⟨f, _, rfl⟩ := sequencePc_eq_next h
  · exact (handlerOf_running hi hu : u.running = s.running)
  · exact handlerOf_running hi ht
  · exact takeFault_running f s

/-- A step that changes `running` executed a HLT: a fault entry and every other instruction keep it. -/
theorem stepWith_running_ne {m : OpcodeMap} {s t : State} (h : stepWith m s = .next t)
    (hr : t.running ≠ s.running) : fetchDecode m s = .ok .hlt ∧ exec .hlt s = .next t := by
  obtain ⟨_, _, ⟨f, _, rfl⟩ | ⟨i, hi, hx⟩⟩ := stepWith_next h
  · exact absurd (takeFault_running f s) hr
  · obtain rfl : i = .hlt := by_contra fun hne => hr (exec_running_of_ne_hlt hne hx)
    exact ⟨hi, hx⟩

/-- Settles O35: a step that changes `running` executed a HLT, whose next state has `running` cleared, pc advanced and
nothing else changed. -/
theorem onlyHltChangesRunning : Obligations.OnlyHltChangesRunning := by
  refine ⟨fun m s t h hr => ?_, fun s => ⟨_, exec_hlt s, rfl, rfl, rfl, rfl, rfl⟩, rfl⟩
  obtain ⟨hd, hx⟩ := stepWith_running_ne h hr
  cases (exec_hlt s).symm.trans hx
  exact ⟨hd, rfl⟩

/-! ### JMP and the edge of memory (R112, R182, R183) -/

/-- With the gate open, the step at pc 254 or 255 latches the fetch's fault at address 256 and nothing else. -/
theorem stepWith_at_edge {s : State} (m : OpcodeMap) (hr : s.running = true) (hf : s.fault = none) (h : s.pc < 256)
    (h2 : 254 ≤ s.pc) : stepWith m s = .next { s with fault := some ⟨.outOfBoundsMemory 256, s.pc⟩ } :=
  stepWith_of_fetchDecode_error hr hf (fetchDecode_of_fetch_error (fetch_at_edge h (Nat.add_le_add_right h2 2)))

/-- Settles O27: the target is a byte, so the jump itself cannot leave memory and only the next step's fetch of three
bytes can. -/
theorem jmpSetsPcToTheRegister : Obligations.JmpSetsPcToTheRegister := by
  refine ⟨encodedAs_build .jmp, fun a s => ⟨fun ha => ⟨?_, fun htarget hr hf m => ?_⟩, fun ha => ?_⟩⟩
  · simp only [exec_eq_sequencePc, handlerOf, jumpToReg_valid s ha, sequencePc_pcSet]
  · exact stepWith_at_edge m hr hf (byte_lt_memSize _) htarget
  · exact exec_of_handler_error (jumpToReg_invalid s ha)

end Sys2Proof.Machine
end

section
/-! SUPPORT. The statements of spec/30_encoding.md about the encoder and the decoder as inverses, and about the default
map, with the operand bytes of an instruction as a list of their own. -/

namespace Sys2Proof

/-! ### The operand bytes (R81) -/

/-- The operand bytes of an instruction, in the order of its format (R81). -/
def Instr.operandBytes : Instr → List Byte
  | .hlt => []
  | .ldi a b => [a, b]
  | .prn a => [a]
  | .add a b => [a, b]
  | .mul a b => [a, b]
  | .push a => [a]
  | .pop a => [a]
  | .cmp a b => [a, b]
  | .jmp a => [a]
  | .jeq a => [a]
  | .jne a => [a]

/-- An encoding is the opcode byte, then the operand bytes (R80). -/
theorem encode_eq_cons (m : OpcodeMap) (i : Instr) : encode m i = m.byte i.mnemonic :: i.operandBytes := by
  cases i <;> rfl

theorem length_operandBytes (i : Instr) : i.operandBytes.length + 1 = lengthOf i.mnemonic := by
  cases i <;> rfl

/-- `build` keeps as many of the two latched operand bytes as the length leaves room for (R82, R91). -/
theorem operandBytes_build (k : Mnemonic) (a b : Byte) : (build k a b).operandBytes = [a, b].take (lengthOf k - 1) := by
  cases k <;> rfl

/-- `build` gives an instruction back from its own operand bytes, whatever bytes follow them. -/
theorem build_operandBytes_append (i : Instr) (rest : List Byte) (p q : Byte) :
    build i.mnemonic ((i.operandBytes ++ rest).getD 0 p) ((i.operandBytes ++ rest).getD 1 q) = i := by
  cases i <;> rfl

/-! ### The decoder of a byte string, by its first byte -/

/-- On a byte of the map, the decoder of a byte string asks for the bytes of the instruction it names only. -/
theorem decodeStream_byte (m : OpcodeMap) (k : Mnemonic) (tl : List Byte) :
    decodeStream m (m.byte k :: tl) =
      if lengthOf k ≤ tl.length + 1 then
        .ok (build k (tl.getD 0 0#8) (tl.getD 1 0#8), (m.byte k :: tl).drop (lengthOf k))
      else .error (.truncated (lengthOf k) (tl.length + 1)) := by
  simp only [decodeStream, decode_byte, build_mnemonic]

/-- A byte string that decodes starts with a byte of the map, and holds the bytes of the instruction that byte names. -/
theorem decodeStream_eq_ok {m : OpcodeMap} {bs rest : List Byte} {i : Instr} (h : decodeStream m bs = .ok (i, rest)) :
    ∃ k tl, bs = m.byte k :: tl ∧ lengthOf k ≤ tl.length + 1 ∧ i = build k (tl.getD 0 0#8) (tl.getD 1 0#8) ∧
      rest = bs.drop (lengthOf k) := by
  cases bs with
  | nil => cases h
  | cons op tl =>
    cases hl : lookupOpcode m op with
    | none => simp only [decodeStream, decode, hl] at h; cases h
    | some k =>
      obtain rfl := lookupOpcode_some hl
      rw [decodeStream_byte] at h
      split at h
      next hlen => cases h; exact ⟨k, tl, rfl, hlen, rfl, rfl⟩
      next => cases h

/-- The first `n ≤ 2` bytes of a string that has them, read one by one. -/
theorem take_pair_getD {tl : List Byte} {n : Nat} (h2 : n ≤ 2) (h : n ≤ tl.length) (p q : Byte) :
    [tl.getD 0 p, tl.getD 1 q].take n = tl.take n := by
  match n, tl with
  | 0, _ => rfl
  | 1, _ :: _ => rfl
  | 2, _ :: _ :: _ => rfl

/-! ### The statements -/

/-- Settles O1: the encoding is the opcode byte, which the lookup takes back to the name, then the operand bytes, from
which `build` makes the instruction again whatever bytes stand after them. -/
theorem decodeOfEncodeIsTheInstruction : Obligations.DecodeOfEncodeIsTheInstruction := by
  intro m i
  rw [encode_eq_cons]
  constructor
  · intro rest
    have hlen := length_operandBytes i
    have hfits : lengthOf i.mnemonic ≤ (i.operandBytes ++ rest).length + 1 := by
      rw [List.length_append]; omega
    rw [List.cons_append, decodeStream_byte, if_pos hfits, build_operandBytes_append, ← hlen, List.drop_succ_cons,
      List.drop_left]
  · intro p q r
    have hbuild := build_operandBytes_append i [] q r
    rw [List.append_nil] at hbuild
    rw [List.getD_cons_zero, List.getD_cons_succ, List.getD_cons_succ, decode_byte, hbuild]

/-- Settles O2: a string that decodes starts with the byte of a name `k`; the operand bytes of the decoded instruction
are the bytes after it, up to the length of `k`, and the rest is what stands beyond. -/
theorem decodedBytesAreTheEncoding : Obligations.DecodedBytesAreTheEncoding := by
  intro m bs rest i h
  obtain ⟨k, tl, rfl, hlen, rfl, rfl⟩ := decodeStream_eq_ok h
  obtain ⟨n, hn⟩ : ∃ n, lengthOf k = n + 1 := ⟨_, (Nat.sub_add_cancel (Laws.EncodeShape.length_bounds k).1).symm⟩
  have hn2 : n ≤ 2 := by have := (Laws.EncodeShape.length_bounds k).2; omega
  rw [encode_eq_cons, build_mnemonic, operandBytes_build, hn, Nat.add_sub_cancel,
    take_pair_getD hn2 (by omega), List.drop_succ_cons, List.cons_append, List.take_append_drop]

/-- Settles O3: each word starts with the byte the default map gives a name, so the decoder answers what `build` makes
of that name and the next two bytes. -/
theorem wordsOfTheTableDecode : Obligations.WordsOfTheTableDecode :=
  have word (k : Mnemonic) := decode_byte defaultOpcodeMap k
  ⟨word .hlt _ _, word .ldi _ _, word .prn _ _, word .add _ _, word .mul _ _, word .push _ _, word .pop _ _,
    word .cmp _ _, word .jmp _ _, word .jeq _ _, word .jne _ _⟩

/-- Settles O6: eleven bytes, each with its two high bits, bit 5 and bit 4 read off. -/
theorem defaultOpcodeBitStructure : Obligations.DefaultOpcodeBitStructure := by
  intro k
  cases k <;> decide

end Sys2Proof
end

section
/-! SUPPORT. Which instructions fault: a handler raises the first invalid register R114's table checks, and completes
where there is none. -/

namespace Sys2Proof.Machine

/-! ### The first invalid register (R118) -/

theorem find_invalid_cons (a : Byte) (rest : List Byte) :
    (a :: rest).find? (fun r => !validReg r) =
      if a.toNat < 8 then rest.find? (fun r => !validReg r) else some a := by
  by_cases ha : a.toNat < 8
  · rw [if_pos ha, List.find?_cons_of_neg]; simp [validReg_iff.2 ha]
  · rw [if_neg ha, List.find?_cons_of_pos]; simp [validReg, ha]

/-- The first invalid register is one of the checked ones, and is not below 8. -/
theorem firstInvalid_eq_some {i : Instr} {e : Bool} {r : Byte} (h : firstInvalid i e = some r) :
    r ∈ (signals i e).checked ∧ 8 ≤ r.toNat := by
  refine ⟨List.mem_of_find?_eq_some h, Nat.le_of_not_lt fun hr => ?_⟩
  have hbad := List.find?_some h
  simp only [validReg_iff.2 hr, Bool.not_true, Bool.false_eq_true] at hbad

/-- Where none is invalid, every checked register is below 8. -/
theorem firstInvalid_eq_none {i : Instr} {e : Bool} (h : firstInvalid i e = none) :
    ∀ r ∈ (signals i e).checked, r.toNat < 8 := fun r hr => by
  simpa [validReg_iff] using List.find?_eq_none.1 h r hr

/-- What is checked is a register operand. -/
theorem checked_subset_regOperands (i : Instr) (e : Bool) : (signals i e).checked ⊆ i.regOperands := by
  cases i with
  | jeq a | jne a => cases e <;> simp [signals, Instr.regOperands]
  | _ => exact List.Subset.refl _

/-! ### A handler answers by its checked registers -/

/-- The handler of `i` raises the first invalid checked register, and completes where there is none. -/
def AnswersByCheckedRegisters (i : Instr) (s : State) : Prop :=
  (∃ r, firstInvalid i (eSet s) = some r ∧ handlerOf i s = .error (.outOfBoundsRegister r)) ∨
  (firstInvalid i (eSet s) = none ∧ ∃ u p, handlerOf i s = .ok (u, p))

section
variable {i : Instr} {s u : State} {p : PcUpdate} {a b : Byte}

theorem answers_of_checked_nil (hc : (signals i (eSet s)).checked = []) (hok : handlerOf i s = .ok (u, p)) :
    AnswersByCheckedRegisters i s :=
  .inr ⟨by rw [firstInvalid, hc, List.find?_nil], u, p, hok⟩

theorem answers_of_checked_single (hc : (signals i (eSet s)).checked = [a])
    (hok : a.toNat < 8 → ∃ u p, handlerOf i s = .ok (u, p))
    (hbad : 8 ≤ a.toNat → handlerOf i s = .error (.outOfBoundsRegister a)) : AnswersByCheckedRegisters i s := by
  unfold AnswersByCheckedRegisters
  rw [firstInvalid, hc, find_invalid_cons, List.find?_nil]
  split
  next ha => exact .inr ⟨rfl, hok ha⟩
  next ha => exact .inl ⟨a, rfl, hbad (Nat.le_of_not_lt ha)⟩

/-- An ALU instruction checks `a` before `b` (D12). -/
theorem answers_of_alu {k : AluKind} (hc : (signals i (eSet s)).checked = [a, b])
    (hi : handlerOf i s = aluInstr k a b s)
    (hok : a.toNat < 8 → b.toNat < 8 → ∃ u p, aluInstr k a b s = .ok (u, p)) : AnswersByCheckedRegisters i s := by
  unfold AnswersByCheckedRegisters
  rw [firstInvalid, hc, find_invalid_cons, find_invalid_cons, List.find?_nil, hi]
  split
  next ha =>
    split
    next hb => exact .inr ⟨rfl, hok ha hb⟩
    next hb => exact .inl ⟨b, rfl, aluInstr_invalid_b k s ha (Nat.le_of_not_lt hb)⟩
  next ha => exact .inl ⟨a, rfl, aluInstr_invalid_a k s (Nat.le_of_not_lt ha)⟩

/-- A jump that R114's table says to take checks the register it goes to. -/
theorem answers_of_jump (hc : (signals i (eSet s)).checked = [a]) (hi : handlerOf i s = jumpToReg s a) :
    AnswersByCheckedRegisters i s :=
  answers_of_checked_single hc (fun ha => ⟨_, _, hi.trans (jumpToReg_valid s ha)⟩)
    fun ha => hi.trans (jumpToReg_invalid s ha)

end

theorem handlerOf_answers (i : Instr) (s : State) : AnswersByCheckedRegisters i s := by
  cases i with
  | hlt => exact answers_of_checked_nil rfl rfl
  | ldi a b => exact answers_of_checked_single rfl (fun ha => ⟨_, _, handleLdi_valid b s ha⟩) (handleLdi_invalid b s)
  | prn a => exact answers_of_checked_single rfl (fun ha => ⟨_, _, handlePrn_valid s ha⟩) (handlePrn_invalid s)
  | add a b => exact answers_of_alu rfl rfl fun ha hb => ⟨_, _, aluInstr_add s ha hb⟩
  | mul a b => exact answers_of_alu rfl rfl fun ha hb => ⟨_, _, aluInstr_mul s ha hb⟩
  | push a => exact answers_of_checked_single rfl (fun ha => ⟨_, _, handlePush_valid s ha⟩) (handlePush_invalid s)
  | pop a => exact answers_of_checked_single rfl (fun ha => ⟨_, _, handlePop_valid s ha⟩) (handlePop_invalid s)
  | cmp a b => exact answers_of_alu rfl rfl fun ha hb => ⟨_, _, aluInstr_cmp s ha hb⟩
  | jmp a => exact answers_of_jump rfl rfl
  | jeq a =>
    cases he : eSet s with
    | true => exact answers_of_jump (by rw [he]; rfl) (handleJeq_taken a he)
    | false => exact answers_of_checked_nil (by rw [he]; rfl) (handleJeq_not_taken a he)
  | jne a =>
    cases he : eSet s with
    | true => exact answers_of_checked_nil (by rw [he]; rfl) (handleJne_not_taken a he)
    | false => exact answers_of_jump (by rw [he]; rfl) (handleJne_taken a he)

/-! ### What an instruction leaves in the latch -/

/-- No handler that completes touches the latch. -/
theorem handlerOf_fault {i : Instr} {s u : State} {p : PcUpdate} (h : handlerOf i s = .ok (u, p)) :
    u.fault = s.fault := by
  obtain hu | ⟨_, rfl⟩ | ⟨_, _, _, hu⟩ | ⟨_, v, _, _, rfl⟩ := handlerOf_eq_ok h
  · rw [hu]
  · rfl
  · rw [hu]
  · exact emit_fault s v

/-- An instruction takes the fault of its first invalid register, or completes and leaves the latch as it was. -/
theorem exec_eq_next {i : Instr} {s t : State} (h : exec i s = .next t) :
    (∃ r, firstInvalid i (eSet s) = some r ∧ t = takeFault (.outOfBoundsRegister r) s) ∨
    (firstInvalid i (eSet s) = none ∧ t.fault = s.fault ∧
      ((∃ u n, handlerOf i s = .ok (u, .advance n) ∧ t = { u with pc := s.pc + n }) ∨
        handlerOf i s = .ok (t, .pcSet))) := by
  rw [exec_eq_sequencePc] at h
  obtain ⟨r, hr, hbad⟩ | ⟨hnone, u, p, hok⟩ := handlerOf_answers i s
  · rw [hbad, sequencePc_error] at h
    cases h; exact .inl ⟨r, hr, rfl⟩
  · rw [hok] at h
    have hfault := handlerOf_fault hok
    refine .inr ⟨hnone, ?_⟩
    cases p with
    | advance n => cases h; exact ⟨hfault, .inl ⟨u, n, hok, rfl⟩⟩
    | pcSet => cases h; exact ⟨hfault, .inr hok⟩

theorem exec_of_firstInvalid {i : Instr} {s : State} {r : Byte} (h : firstInvalid i (eSet s) = some r) :
    exec i s = .next (takeFault (.outOfBoundsRegister r) s) := by
  obtain ⟨r', hr', hbad⟩ | ⟨hnone, _⟩ := handlerOf_answers i s
  · obtain rfl : r = r' := Option.some.inj (h.symm.trans hr')
    exact exec_of_handler_error hbad
  · rw [h] at hnone; cases hnone

end Sys2Proof.Machine
end

section
/-! SUPPORT. The statements of spec/40_execution_cycle.md and spec/60_exceptions.md about when there is a step, which
fault it latches and what a faulting step changes. -/

namespace Sys2Proof.Machine

/-! ### When there is a step (R110) -/

/-- Settles O7: with the gate open, the step is the execution of what fetch and decode give. -/
theorem stepRunsTheDecodedInstruction : Obligations.StepRunsTheDecodedInstruction :=
  ⟨fun _ _ _ hr hf hpc hd => stepWith_of_fetchDecode_ok hr hf (fetchDecode_of_decode hpc hd), fun _ => rfl⟩

/-- Settles O9: both addresses are inside memory, and two bytes on is not. -/
theorem noInstructionExecutesAt254Or255 : Obligations.NoInstructionExecutesAt254Or255 := by
  intro m s hr hf hpc
  exact stepWith_at_edge m hr hf (by omega) (by omega)

/-- With the gate open there is a step: both fault entry and every instruction answer a next state. -/
theorem stepWith_possible (m : OpcodeMap) {s : State} (hr : s.running = true) (hf : s.fault = none) :
    ∃ t, stepWith m s = .next t := by
  cases hd : fetchDecode m s with
  | error f => exact ⟨_, stepWith_of_fetchDecode_error hr hf hd⟩
  | ok i => rw [stepWith_of_fetchDecode_ok hr hf hd]; exact exec_next i s

theorem stepWith_of_noStep {m : OpcodeMap} {s : State} {f : Fault} (h : noStep s = some f) :
    stepWith m s = .fault f := by
  simp only [stepWith, h]

/-- Settles O10: a step is possible where the gate is open, and only there; elsewhere the gate answers. -/
theorem stepIsPossibleExactlyWhenRunning : Obligations.StepIsPossibleExactlyWhenRunning := by
  refine fun m s => ⟨⟨?_, fun ⟨hr, hf⟩ => stepWith_possible m hr hf⟩, fun r hf => ?_, fun hf hr => ?_⟩
  · rintro ⟨t, ht⟩
    obtain ⟨hr, hf, _⟩ := stepWith_next ht
    exact ⟨hr, hf⟩
  · exact stepWith_of_noStep (by simp only [noStep, hf])
  · exact stepWith_of_noStep (by simp [noStep, hf, hr])

/-! ### Which fault a step latches (R205, R206) -/

/-- A fault record a step can latch: fetch, opcode, or the first invalid register of the instruction at pc. -/
theorem stepWith_fault {m : OpcodeMap} {s t : State} (h : stepWith m s = .next t) :
    (∃ f, fetchDecode m s = .error f ∧ t = takeFault f s) ∨
    (∃ i r, fetchDecode m s = .ok i ∧ firstInvalid i (eSet s) = some r ∧ t = takeFault (.outOfBoundsRegister r) s) ∨
    (∃ i, fetchDecode m s = .ok i ∧ firstInvalid i (eSet s) = none ∧ t.fault = none) := by
  obtain ⟨_, hf, hbad | ⟨i, hi, hx⟩⟩ := stepWith_next h
  · exact .inl hbad
  · obtain ⟨r, hr, ht⟩ | ⟨hnone, ht, _⟩ := exec_eq_next hx
    · exact .inr (.inl ⟨i, r, hi, hr, ht⟩)
    · exact .inr (.inr ⟨i, hi, hnone, ht.trans hf⟩)

/-- With the gate open and the three bytes inside memory, the latch after a step is set by opcode and registers. -/
theorem stepWith_fault_of_fetch {m : OpcodeMap} {s t : State} (hpc : s.pc + 2 < 256) (h : stepWith m s = .next t) :
    t.fault =
      match lookupOpcode m (memGet s.mem s.pc) with
      | none => some ⟨.illegalInstruction (memGet s.mem s.pc), s.pc⟩
      | some k =>
        match firstInvalid (build k (memGet s.mem (s.pc + 1)) (memGet s.mem (s.pc + 2))) (eSet s) with
        | some r => some ⟨.outOfBoundsRegister r, s.pc⟩
        | none => none := by
  obtain ⟨hr, hf, _⟩ := stepWith_next h
  cases hl : lookupOpcode m (memGet s.mem s.pc) with
  | none =>
    rw [stepWith_of_fetchDecode_error hr hf (fetchDecode_of_illegal hpc (lookupOpcode_none.1 hl))] at h
    cases h; rfl
  | some k =>
    rw [stepWith_of_opcode hr hf hpc (lookupOpcode_some hl)] at h
    obtain ⟨r, hr, rfl⟩ | ⟨hnone, ht, _⟩ := exec_eq_next h
    · simp only [hr, takeFault_fault]
    · simp only [hnone, ht, hf]

/-- Settles O11: where a fetch address is outside memory the first such one is latched, 256 at both edges; else the
opcode and the registers set the latch. -/
theorem stepLatchesTheFirstFaultThatApplies : Obligations.StepLatchesTheFirstFaultThatApplies := by
  intro m s hr hf
  obtain ⟨t, ht⟩ := stepWith_possible m hr hf
  refine ⟨t, ht, ?_⟩
  split_ifs with h0 h1 h2
  · rw [stepWith_of_fetchDecode_error hr hf (fetchDecode_of_fetch_error (fetch_of_ge h0))] at ht
    cases ht; rfl
  · rw [stepWith_at_edge m hr hf (by omega) (by omega)] at ht
    cases ht; simp only [show s.pc + 1 = 256 by omega]
  · rw [stepWith_at_edge m hr hf (by omega) (by omega)] at ht
    cases ht; simp only [show s.pc + 2 = 256 by omega]
  · exact stepWith_fault_of_fetch (by omega) ht

/-- Settles O12: a step that leaves a record in the latch took a fault, and fault entry changes the latch alone. -/
theorem faultingStepChangesOnlyTheLatch : Obligations.FaultingStepChangesOnlyTheLatch := by
  intro m s t h hne
  obtain ⟨f, _, rfl⟩ | ⟨_, r, _, _, rfl⟩ | ⟨_, _, _, ht⟩ := stepWith_fault h
  · exact ⟨rfl, f, rfl⟩
  · exact ⟨rfl, .outOfBoundsRegister r, rfl⟩
  · exact absurd ht hne

/-- Settles O20: fetch and decode raise memory faults and illegal instructions only, and an instruction takes register
faults only. -/
theorem unsupportedAluOpIsNeverLatched : Obligations.UnsupportedAluOpIsNeverLatched := by
  intro m s t h r hr k hk
  obtain ⟨f, hd, rfl⟩ | ⟨_, _, _, _, rfl⟩ | ⟨_, _, _, ht⟩ := stepWith_fault h
  · cases hr
    obtain ⟨_, rfl⟩ | ⟨_, _, rfl⟩ | ⟨_, _, rfl⟩ := fetchDecode_error hd <;> cases hk
  · cases hr; cases hk
  · rw [ht] at hr; cases hr

end Sys2Proof.Machine
end

section
/-! SUPPORT. What an instruction writes when it completes, one rule per instruction (a conditional branch has two), and
that every handler follows its rule. Frames, the machine's invariant and R114's table are read off the rules. -/

namespace Sys2Proof.Machine

/-- `Completes i s u p`: on `s`, `i` completes with the state `u` and the pc contract `p` (R115). -/
inductive Completes : Instr → State → State → PcUpdate → Prop
  | hlt (s : State) : Completes .hlt s { s with running := false } (.advance 1)
  | ldi {a : Byte} (b : Byte) (s : State) (ha : a.toNat < 8) :
      Completes (.ldi a b) s { s with x := s.x.set a.toNat b ha } (.advance 3)
  | prn {a : Byte} (s : State) (ha : a.toNat < 8) : Completes (.prn a) s (emit s (s.x[a.toNat]'ha)) (.advance 2)
  | add {a b : Byte} (s : State) (ha : a.toNat < 8) (hb : b.toNat < 8) :
      Completes (.add a b) s { s with x := s.x.set a.toNat (add8 (s.x[a.toNat]'ha) (s.x[b.toNat]'hb)) ha } (.advance 3)
  | mul {a b : Byte} (s : State) (ha : a.toNat < 8) (hb : b.toNat < 8) :
      Completes (.mul a b) s { s with x := s.x.set a.toNat (mul8 (s.x[a.toNat]'ha) (s.x[b.toNat]'hb)) ha } (.advance 3)
  | cmp {a b : Byte} (s : State) (ha : a.toNat < 8) (hb : b.toNat < 8) :
      Completes (.cmp a b) s { s with fl := compareFlags (s.x[a.toNat]'ha) (s.x[b.toNat]'hb) } (.advance 3)
  | push {a : Byte} (s : State) (x1 : Vector Byte 8) (hx : x1 = s.x.set 7 (sub8 s.x[7] 1#8)) (ha : a.toNat < 8) :
      Completes (.push a) s { s with x := x1, mem := memSet s.mem (x1[7]).toNat (x1[a.toNat]'ha) } (.advance 2)
  | pop {a : Byte} (s : State) (x1 : Vector Byte 8) (ha : a.toNat < 8)
      (hx : x1 = s.x.set a.toNat (memGet s.mem (s.x[7]).toNat) ha) :
      Completes (.pop a) s { s with x := x1.set 7 (add8 x1[7] 1#8) } (.advance 2)
  | jmp {a : Byte} (s : State) (ha : a.toNat < 8) :
      Completes (.jmp a) s { s with pc := (s.x[a.toNat]'ha).toNat } .pcSet
  | jeq {a : Byte} (s : State) (he : eSet s = true) (ha : a.toNat < 8) :
      Completes (.jeq a) s { s with pc := (s.x[a.toNat]'ha).toNat } .pcSet
  | jeqNotTaken (a : Byte) (s : State) (he : eSet s = false) : Completes (.jeq a) s s (.advance 2)
  | jne {a : Byte} (s : State) (he : eSet s = false) (ha : a.toNat < 8) :
      Completes (.jne a) s { s with pc := (s.x[a.toNat]'ha).toNat } .pcSet
  | jneNotTaken (a : Byte) (s : State) (he : eSet s = true) : Completes (.jne a) s s (.advance 2)

/-- A handler that completes had valid registers wherever R114's table checks them. -/
theorem checked_valid_of_ok {i : Instr} {s u : State} {p : PcUpdate} (h : handlerOf i s = .ok (u, p)) :
    ∀ r ∈ (signals i (eSet s)).checked, r.toNat < 8 := by
  obtain ⟨r, _, hbad⟩ | ⟨hnone, _⟩ := handlerOf_answers i s
  · rw [h] at hbad; cases hbad
  · exact firstInvalid_eq_none hnone

/-- A handler that completes follows the rule of its instruction. -/
theorem handlerOf_completes {i : Instr} {s u : State} {p : PcUpdate} (h : handlerOf i s = .ok (u, p)) :
    Completes i s u p := by
  have hv := checked_valid_of_ok h
  cases i with
  | hlt => cases h; exact .hlt s
  | ldi a b =>
    have ha : a.toNat < 8 := hv a (.head _)
    cases (handleLdi_valid b s ha).symm.trans h; exact .ldi b s ha
  | prn a =>
    have ha : a.toNat < 8 := hv a (.head _)
    cases (handlePrn_valid s ha).symm.trans h; exact .prn s ha
  | add a b =>
    obtain ⟨ha, hb⟩ := aluInstr_ok_valid h
    cases (aluInstr_add s ha hb).symm.trans h; exact .add s ha hb
  | mul a b =>
    obtain ⟨ha, hb⟩ := aluInstr_ok_valid h
    cases (aluInstr_mul s ha hb).symm.trans h; exact .mul s ha hb
  | cmp a b =>
    obtain ⟨ha, hb⟩ := aluInstr_ok_valid h
    cases (aluInstr_cmp s ha hb).symm.trans h; exact .cmp s ha hb
  | push a =>
    have ha : a.toNat < 8 := hv a (.head _)
    cases (handlePush_valid s ha).symm.trans h; exact .push s _ rfl ha
  | pop a =>
    have ha : a.toNat < 8 := hv a (.head _)
    cases (handlePop_valid s ha).symm.trans h; exact .pop s _ ha rfl
  | jmp a =>
    obtain ⟨ha, rfl, rfl⟩ := jumpToReg_eq_ok h
    exact .jmp s ha
  | jeq a =>
    cases he : eSet s with
    | true =>
      obtain ⟨ha, rfl, rfl⟩ := jumpToReg_eq_ok ((handleJeq_taken a he).symm.trans h)
      exact .jeq s he ha
    | false => cases (handleJeq_not_taken a he).symm.trans h; exact .jeqNotTaken a s he
  | jne a =>
    cases he : eSet s with
    | true => cases (handleJne_not_taken a he).symm.trans h; exact .jneNotTaken a s he
    | false =>
      obtain ⟨ha, rfl, rfl⟩ := jumpToReg_eq_ok ((handleJne_taken a he).symm.trans h)
      exact .jne s he ha

/-- What an instruction does, said once: the fault of its first invalid register, or its rule, with pc as the contract
says. -/
theorem exec_cases {i : Instr} {s t : State} (h : exec i s = .next t) :
    (∃ r, firstInvalid i (eSet s) = some r ∧ t = takeFault (.outOfBoundsRegister r) s) ∨
    (firstInvalid i (eSet s) = none ∧
      ((∃ u n, Completes i s u (.advance n) ∧ t = { u with pc := s.pc + n }) ∨ Completes i s t .pcSet)) := by
  obtain hbad | ⟨hnone, _, ⟨u, n, hu, ht⟩ | ht⟩ := exec_eq_next h
  · exact .inl hbad
  · exact .inr ⟨hnone, .inl ⟨u, n, handlerOf_completes hu, ht⟩⟩
  · exact .inr ⟨hnone, .inr (handlerOf_completes ht)⟩

/-! ### Memory, pc and FL of the rules -/

section
variable {i : Instr} {s u : State} {p : PcUpdate}

/-- The address PUSH stores at, SP after the decrement (R171). -/
theorem memAddress_stackW_decremented (s : State) :
    memAddress .stackW (setSp s (sub8 (sp s) 1#8)) = (sub8 s.x[7] 1#8).toNat := by
  rw [memAddress_stackW, sp_setSp, sp_eq]

/-- Only PUSH writes memory, one byte at the decremented SP. -/
theorem Completes.mem (h : Completes i s u p) :
    u.mem = s.mem ∨ ∃ a v, i = .push a ∧ u.mem = memSet s.mem (memAddress .stackW (setSp s (sub8 (sp s) 1#8))) v := by
  cases h with
  | @push a _ x1 hx ha =>
    have haddr : memAddress .stackW (setSp s (sub8 (sp s) 1#8)) = (x1[7]).toNat := by
      rw [memAddress_stackW_decremented, hx, Vector.getElem_set_self]
    exact .inr ⟨a, x1[a.toNat], rfl, by rw [haddr]⟩
  | _ => exact .inl rfl

/-- An instruction advances by its length, which is at most 3 (R82). -/
theorem Completes.advance_le {n : Nat} (h : Completes i s u (.advance n)) : n ≤ 3 := by
  cases h <;> decide

/-- A jump goes to a byte's value (R183). -/
theorem Completes.pcSet_lt (h : Completes i s u .pcSet) : u.pc < 256 := by
  cases h <;> exact byte_lt_memSize _

theorem Completes.fl_ne_clear (h : Completes i s u p) (hs : s.fl ≠ .clear) : u.fl ≠ .clear := by
  cases h with
  | cmp => exact compareFlags_ne_clear _ _
  | _ => exact hs

theorem Completes.memWf (h : Completes i s u p) (hs : Memory.wf s.mem = true) : Memory.wf u.mem = true := by
  obtain hu | ⟨_, v, _, hu⟩ := h.mem
  · rw [hu]; exact hs
  · rw [hu]; exact memWf_memSet v hs (byte_lt_memSize _)

end

end Sys2Proof.Machine
end

section
/-! SUPPORT. The machine's invariant: at reset, after every step, and along every run of every image. -/

namespace Sys2Proof.Machine

/-- A fault of fetch or decode is legal where pc is in 0..256. -/
theorem legalCause_of_fetchDecode {m : OpcodeMap} {s : State} {f : CoreFault} (hpc : s.pc ≤ 256)
    (h : fetchDecode m s = .error f) : legalCause m f := by
  obtain ⟨hge, rfl⟩ | ⟨_, _, rfl⟩ | ⟨_, hill, rfl⟩ := fetchDecode_error h
  · exact Nat.le_antisymm hpc hge
  · exact rfl
  · exact hill

/-- Taking a legal fault while running keeps the invariant: only the latch changes. -/
theorem inv_takeFault {m : OpcodeMap} {s : State} {f : CoreFault} (hs : Inv m s) (hr : s.running = true)
    (hf : legalCause m f) : Inv m (takeFault f s) := by
  obtain ⟨hmem, hpc, hfl, _⟩ := hs
  refine ⟨hmem, hpc, hfl, fun r hr' => ?_⟩
  cases hr'
  exact ⟨hf, rfl, hr⟩

/-- Executing an instruction that the fetch unit could read keeps the invariant: a register fault is legal; a completing
instruction latches nothing, advances pc by at most 3 or sets it to a byte, and keeps memory and FL in their form. -/
theorem inv_exec {m : OpcodeMap} {i : Instr} {s t : State} (hs : Inv m s) (hr : s.running = true)
    (hf : s.fault = none) (hpc : s.pc + 2 < 256) (h : exec i s = .next t) : Inv m t := by
  have ⟨hmem, _, hfl, _⟩ := hs
  obtain ⟨r, hbad, rfl⟩ | ⟨_, ht, hdone⟩ := exec_eq_next h
  · exact inv_takeFault hs hr (firstInvalid_eq_some hbad).2
  · have hlatch : ∀ r, t.fault = some r → legalCause m r.cause ∧ r.pc = t.pc ∧ t.running = true := by
      rw [ht, hf]; rintro r ⟨⟩
    obtain ⟨u, n, hu, rfl⟩ | hu := hdone
    · have hc := handlerOf_completes hu
      have hn := hc.advance_le
      exact ⟨hc.memWf hmem, show s.pc + n ≤ 256 by omega, hc.fl_ne_clear hfl, hlatch⟩
    · have hc := handlerOf_completes hu
      exact ⟨hc.memWf hmem, Nat.le_of_lt hc.pcSet_lt, hc.fl_ne_clear hfl, hlatch⟩

/-- Settles O45: the step ran with the gate open and either took a legal fault of fetch or decode, or executed an
instruction whose three bytes were inside memory. -/
theorem machineInvariantIsKeptByEveryStep : Obligations.MachineInvariantIsKeptByEveryStep := by
  intro m s t hs h
  have ⟨_, hpc, _⟩ := hs
  obtain ⟨hr, hf, ⟨f, hd, rfl⟩ | ⟨i, hd, hx⟩⟩ := stepWith_next h
  · exact inv_takeFault hs hr (legalCause_of_fetchDecode hpc hd)
  · exact inv_exec hs hr hf (fetchDecode_ok_pc hd) hx

/-- A state with memory in canonical form and everything else at its reset value meets the invariant. -/
theorem inv_of_reset_mem (m : OpcodeMap) {mem : List Host.Cell} (hmem : Memory.wf mem = true) :
    Inv m { State.reset with mem := mem } :=
  ⟨hmem, Nat.zero_le _, nofun, nofun⟩

/-- Settles O44: reset leaves memory in canonical form. -/
theorem machineInvariantHoldsAtReset : Obligations.MachineInvariantHoldsAtReset :=
  fun m => inv_of_reset_mem m memWf_reset

/-- A launch state is reset with the image in memory, in canonical form. -/
theorem inv_launch (m : OpcodeMap) {img : List Byte} {s : State} (h : launch img = .ok s) : Inv m s := by
  rw [loadBytes_frame h]
  exact inv_of_reset_mem m (memWf_loadBytes h memWf_reset)

/-- The one step a run of `k + 1` steps begins with. -/
theorem runWith_succ_eq_some {m : OpcodeMap} {k : Nat} {s t : State} (h : runWith m (k + 1) s = some t) :
    ∃ u, stepWith m s = .next u ∧ runWith m k u = some t := by
  rw [runWith] at h
  cases hs : stepWith m s with
  | next u => rw [hs] at h; exact ⟨u, rfl, h⟩
  | fault f => rw [hs] at h; cases h
  | refused r => rw [hs] at h; cases h

/-- What every step keeps holds along every run. -/
theorem runWith_keeps {m : OpcodeMap} {P : State → Prop} (hstep : ∀ s t, P s → stepWith m s = .next t → P t)
    {k : Nat} {s t : State} (hs : P s) (h : runWith m k s = some t) : P t := by
  induction k generalizing s with
  | zero => cases h; exact hs
  | succ k ih =>
    obtain ⟨u, hu, hrun⟩ := runWith_succ_eq_some h
    exact ih (hstep s u hs hu) hrun

/-- Settles O46: the launch state meets the invariant, and every step of the run keeps it. -/
theorem everyRunOfEveryImageStaysLegal : Obligations.EveryRunOfEveryImageStaysLegal :=
  fun m _ _ _ _ hl h => runWith_keeps (machineInvariantIsKeptByEveryStep m) (inv_launch m hl) h

end Sys2Proof.Machine
end

section
/-! SUPPORT. The frames: which registers, memory cells and other components an instruction leaves as they were
(spec/10_state.md, spec/20_memory.md), read off the rules of `Completes`. -/

namespace Sys2Proof.Machine

/-- The same case split with the two pc contracts in one: what an instruction does beside pc is its rule's doing. -/
theorem exec_cases_upto_pc {i : Instr} {s t : State} (h : exec i s = .next t) :
    (∃ r, firstInvalid i (eSet s) = some r ∧ t = takeFault (.outOfBoundsRegister r) s) ∨
    (∃ u p n, Completes i s u p ∧ t = { u with pc := n }) := by
  obtain hbad | ⟨_, ⟨u, n, hu, ht⟩ | ht⟩ := exec_cases h
  · exact .inl hbad
  · exact .inr ⟨u, _, _, hu, ht⟩
  · exact .inr ⟨t, _, t.pc, ht, rfl⟩

/-- Writing one register leaves the others as they were (R25). -/
theorem getElem_set_of_ne {x : Vector Byte 8} {k : Nat} (hk : k < 8) {v : Byte} {r : Fin 8} (h : r.val ≠ k) :
    (x.set k v hk)[r] = x[r] :=
  Vector.getElem_set_ne hk r.isLt h.symm

/-- Settles O31: fault entry writes no register, and a rule that writes one writes its destination, or SP. -/
theorem registersChangeOnlyAsDestinations : Obligations.RegistersChangeOnlyAsDestinations := by
  intro i s t r h hr
  obtain ⟨_, _, rfl⟩ | ⟨u, p, n, hc, rfl⟩ := exec_cases_upto_pc h
  · rfl
  · cases hc with
    | ldi b s ha => exact getElem_set_of_ne ha hr
    | add s ha hb | mul s ha hb => exact getElem_set_of_ne ha hr
    | push s x1 hx ha => subst hx; exact getElem_set_of_ne (by decide) hr
    | pop s x1 ha hx =>
      obtain ⟨hra, hr7⟩ := hr
      subst hx
      exact (getElem_set_of_ne (by decide) hr7).trans (getElem_set_of_ne ha hra)
    | _ => rfl

/-- Settles O32: fault entry leaves memory alone, and so does every rule but PUSH's, which sets the one cell. -/
theorem onlyPushWritesMemory : Obligations.OnlyPushWritesMemory := by
  intro i s t addr h haddr
  obtain ⟨_, _, rfl⟩ | ⟨u, p, n, hc, rfl⟩ := exec_cases_upto_pc h
  · rfl
  · show memGet u.mem addr = memGet s.mem addr
    obtain hu | ⟨a, v, rfl, hu⟩ := hc.mem
    · rw [hu]
    · rw [hu, memGet_memSet_other _ _ _ _ (haddr ⟨a, rfl⟩).symm]

/-- The output a rule leaves: PRN's has the register's value at its end, every other the output as it was. -/
theorem Completes.out {i : Instr} {s u : State} {p : PcUpdate} (h : Completes i s u p) :
    u.out = s.out ∨ ∃ a v, i = .prn a ∧ readReg s a = .ok v ∧ u.out = s.out ++ [v] := by
  cases h with
  | @prn a s ha => exact .inr ⟨a, _, rfl, readReg_valid s ha, rfl⟩
  | _ => exact .inl rfl

/-- What an instruction does to the output: nothing, or PRN's one value at its end. -/
theorem exec_out {i : Instr} {s t : State} (h : exec i s = .next t) :
    t.out = s.out ∨ ∃ a v, i = .prn a ∧ readReg s a = .ok v ∧ t.out = s.out ++ [v] := by
  obtain ⟨_, _, rfl⟩ | ⟨u, p, n, hc, rfl⟩ := exec_cases_upto_pc h
  · exact .inl rfl
  · exact hc.out

/-- Settles O33: FL, `running` and the output have one writer each; the latch changes by fault entry, on an invalid
register operand. -/
theorem flagsRunningOutputAndLatchFrame : Obligations.FlagsRunningOutputAndLatchFrame := by
  refine fun i s t h => ⟨fun hi => exec_fl_of_ne_cmp hi h, fun hi => exec_running_of_ne_hlt hi h, fun hi => ?_,
    fun hne => ?_⟩
  · obtain ht | ⟨a, _, ha, _⟩ := exec_out h
    · exact ht
    · exact absurd ha (hi a)
  · obtain ⟨r, hr, rfl⟩ | ⟨_, ht, _⟩ := exec_eq_next h
    · obtain ⟨hmem, hge⟩ := firstInvalid_eq_some hr
      exact ⟨r, checked_subset_regOperands i _ hmem, hge, rfl⟩
    · exact absurd ht hne

/-- Settles O36: a step that fetched no instruction emits nothing; one that did does what the instruction does. -/
theorem outputOnlyGrowsByPrn : Obligations.OutputOnlyGrowsByPrn := by
  refine ⟨rfl, fun m s t h => ?_⟩
  obtain ⟨_, _, ⟨f, _, rfl⟩ | ⟨i, hi, hx⟩⟩ := stepWith_next h
  · exact .inl rfl
  · obtain ht | ⟨a, v, rfl, hv, ht⟩ := exec_out hx
    · exact .inl ht
    · exact .inr ⟨a, v, hi, hv, ht⟩

end Sys2Proof.Machine
end

section
/-! SUPPORT. The statements of spec/43_stack.md about PUSH and POP together and on R7, and of spec/20_memory.md about
fetching a pushed byte. -/

namespace Sys2Proof.Machine

/-- R12's `-_8` is the subtraction of bytes. -/
theorem sub8_eq_sub (p q : Byte) : sub8 p q = p - q := by
  apply BitVec.eq_of_toNat_eq
  simp only [sub8, BitVec.toNat_ofNat, BitVec.toNat_sub]
  omega

/-- R12's `+_8` is the addition of bytes. -/
theorem add8_eq_add (p q : Byte) : add8 p q = p + q := by
  apply BitVec.eq_of_toNat_eq
  simp only [add8, BitVec.toNat_ofNat, BitVec.toNat_add, Nat.mod_mod]

/-- PUSH with a valid register: its whole next state, `x1` being the registers with SP decremented (R170). -/
theorem exec_push_valid {a : Byte} (s : State) (ha : a.toNat < 8) :
    let x1 := s.x.set 7 (s.x[7] - 1#8)
    exec (.push a) s =
      .next { s with x := x1, mem := memSet s.mem (s.x[7] - 1#8).toNat x1[a.toNat], pc := s.pc + 2 } := by
  intro x1
  rw [exec_eq_sequencePc, handlerOf, handlePush_valid s ha, sequencePc_advance, sub8_eq_sub, Vector.getElem_set_self]

/-- POP with a valid register: its whole next state, `x1` being the registers with the loaded byte (R172). -/
theorem exec_pop_valid {a : Byte} (s : State) (ha : a.toNat < 8) :
    let x1 := s.x.set a.toNat (memGet s.mem (s.x[7]).toNat)
    exec (.pop a) s = .next { s with x := x1.set 7 (x1[7] + 1#8), pc := s.pc + 2 } := by
  intro x1
  rw [exec_eq_sequencePc, handlerOf, handlePop_valid s ha, sequencePc_advance, add8_eq_add]

/-- POP of the register PUSH stored loads what that register holds, so it writes no new value, and SP goes back up. -/
theorem pop_undoes_push_registers (x : Vector Byte 8) {a : Nat} (ha : a < 8) :
    let x1 := x.set 7 (x[7] - 1#8)
    let x2 := x1.set a x1[a]
    x2.set 7 (x2[7] + 1#8) = x := by
  intro x1 x2
  have hx2 : x2 = x1 := Vector.set_getElem_self ha
  rw [hx2, Vector.getElem_set_self, Vector.set_set, BitVec.sub_add_cancel, Vector.set_getElem_self]

/-- Settles O23: POP reads the cell PUSH wrote, through the SP that PUSH left. -/
theorem pushThenPopRoundTrips : Obligations.PushThenPopRoundTrips := by
  intro a s ha
  refine ⟨_, _, exec_push_valid s ha, exec_pop_valid _ ha, ?_, rfl, rfl, rfl, rfl, _, readReg_valid _ ha, ?_⟩
  · simp only [Vector.getElem_set_self, memGet_memSet_same]
    exact pop_undoes_push_registers s.x ha
  · exact memGet_memSet_same _ _ _

/-- Settles O24: the byte PUSH stores and the SP that POP increments are x[7] as the instruction has just written it. -/
theorem stackPointerAsStackOperand : Obligations.StackPointerAsStackOperand := by
  refine ⟨fun s => ⟨_, exec_push_valid s (by decide), ?_, ?_⟩, fun s => ⟨_, exec_pop_valid s (by decide), ?_⟩⟩
  · exact Vector.getElem_set_self _
  · exact (memGet_memSet_same _ _ _).trans (Vector.getElem_set_self _)
  · rw [Vector.getElem_set_self]
    exact congrArg (· + 1#8) (Vector.getElem_set_self _)

/-- What the fetch unit latches where it does not fault (R111). -/
theorem fetch_eq_ok {s : State} {l : Latches} (h : fetch s = .ok l) :
    l = ⟨memGet s.mem s.pc, memGet s.mem (s.pc + 1), memGet s.mem (s.pc + 2)⟩ := by
  by_cases h2 : s.pc + 2 < 256
  · rw [fetch_of_lt h2] at h; cases h; rfl
  · by_cases h0 : s.pc < 256
    · rw [fetch_at_edge h0 (Nat.le_of_not_lt h2)] at h; cases h
    · rw [fetch_of_ge (Nat.le_of_not_lt h0)] at h; cases h

/-- Settles O25: the step is PUSH of the operand byte memory held before; whichever of its three addresses a later fetch
has there, it reads the cell that was written. -/
theorem fetchSeesPushedBytes : Obligations.FetchSeesPushedBytes := by
  intro m s a hr hf hpc hop hopnd ha v
  have hstep : stepWith m s = exec (.push a) s := by
    rw [stepWith_of_opcode hr hf hpc hop.symm, hopnd, build]
  refine ⟨_, hstep.trans (exec_push_valid s ha), fun u l hmem hl => ?_⟩
  rw [fetch_eq_ok hl, hmem]
  exact ⟨fun h => h ▸ memGet_memSet_same _ _ _, fun h => h ▸ memGet_memSet_same _ _ _,
    fun h => h ▸ memGet_memSet_same _ _ _⟩

end Sys2Proof.Machine
end

section
/-! SUPPORT. The statements of spec/44_control.md about HLT, JEQ and JNE. -/

namespace Sys2Proof.Machine

theorem eSet_iff {s : State} : eSet s = true ↔ s.fl = .equal := by
  simp [eSet]

theorem eSet_eq_false_iff {s : State} : eSet s = false ↔ s.fl ≠ .equal := by
  rw [← Bool.not_eq_true, eSet_iff]

/-- Settles O26: HLT's handler has no operand to fault on. -/
theorem hltClearsRunning : Obligations.HltClearsRunning :=
  ⟨encodedAs_build .hlt, exec_hlt⟩

/-- An instruction whose handler is a jump on this state goes to the register's value. -/
theorem exec_of_jump_valid {i : Instr} {a : Byte} {s : State} (hi : handlerOf i s = jumpToReg s a) (ha : a.toNat < 8) :
    exec i s = .next { s with pc := (s.x[a.toNat]'ha).toNat } := by
  rw [exec_eq_sequencePc, hi, jumpToReg_valid s ha, sequencePc_pcSet]

/-- The same instruction faults on a register byte from 8 up. -/
theorem exec_of_jump_invalid {i : Instr} {a : Byte} {s : State} (hi : handlerOf i s = jumpToReg s a)
    (ha : 8 ≤ a.toNat) : exec i s = .next { s with fault := some ⟨.outOfBoundsRegister a, s.pc⟩ } :=
  exec_of_handler_error (hi.trans (jumpToReg_invalid s ha))

/-- An instruction whose handler only advances on this state checks no register. -/
theorem exec_of_advance {i : Instr} {s : State} {n : Nat} (hi : handlerOf i s = .ok (s, .advance n)) :
    exec i s = .next { s with pc := s.pc + n } := by
  rw [exec_eq_sequencePc, hi, sequencePc_advance]

/-- Settles O28: JEQ's handler is a jump exactly where E is set. -/
theorem jeqIsTakenExactlyOnEqual : Obligations.JeqIsTakenExactlyOnEqual := by
  refine ⟨encodedAs_build .jeq, fun a s => ⟨fun he => ?_, fun he => ?_, fun he => ?_⟩⟩
  · exact exec_of_jump_valid (i := .jeq a) (handleJeq_taken a (eSet_iff.2 he))
  · exact exec_of_jump_invalid (i := .jeq a) (handleJeq_taken a (eSet_iff.2 he))
  · exact exec_of_advance (i := .jeq a) (handleJeq_not_taken a (eSet_eq_false_iff.2 he))

/-- Settles O29: JNE's handler is a jump exactly where E is clear. -/
theorem jneIsTakenExactlyOnUnequal : Obligations.JneIsTakenExactlyOnUnequal := by
  refine ⟨encodedAs_build .jne, fun a s => ⟨fun he => ?_, fun he => ?_, fun he => ?_⟩⟩
  · exact exec_of_jump_valid (i := .jne a) (handleJne_taken a (eSet_eq_false_iff.2 he))
  · exact exec_of_jump_invalid (i := .jne a) (handleJne_taken a (eSet_eq_false_iff.2 he))
  · exact exec_of_advance (i := .jne a) (handleJne_not_taken a (eSet_iff.2 he))

/-- CMP sets E exactly where the two bytes are the same. -/
theorem compareFlags_eq_equal_iff {p q : Byte} : compareFlags p q = .equal ↔ p = q :=
  compareFlags_eq_equal.trans BitVec.toNat_inj

/-- Settles O30: CMP leaves E set exactly on equality and the registers as they were; of the two branches the one is
then taken and the other not. -/
theorem branchesFollowTheLastCompare : Obligations.BranchesFollowTheLastCompare := by
  intro a b r s ha hb hr
  obtain ⟨-, jeq⟩ := jeqIsTakenExactlyOnEqual
  obtain ⟨-, jne⟩ := jneIsTakenExactlyOnUnequal
  by_cases heq : s.x[a.toNat] = s.x[b.toNat]
  · have hfl := compareFlags_eq_equal_iff.2 heq
    obtain ⟨jeqTaken, -, -⟩ := jeq r { s with fl := _, pc := s.pc + 3 }
    obtain ⟨-, -, jneNot⟩ := jne r { s with fl := _, pc := s.pc + 3 }
    exact ⟨_, _, _, exec_cmp_valid s ha hb, jeqTaken hfl hr, jneNot hfl, fun _ => ⟨rfl, rfl⟩, fun hne => absurd heq hne⟩
  · have hfl := mt compareFlags_eq_equal_iff.1 heq
    obtain ⟨-, -, jeqNot⟩ := jeq r { s with fl := _, pc := s.pc + 3 }
    obtain ⟨jneTaken, -, -⟩ := jne r { s with fl := _, pc := s.pc + 3 }
    exact ⟨_, _, _, exec_cmp_valid s ha hb, jeqNot hfl, jneTaken hfl hr, fun h => absurd h heq, fun _ => ⟨rfl, rfl⟩⟩

end Sys2Proof.Machine
end

section
/-! SUPPORT. What an instruction does not read: a relation between states that the state operations respect is kept by
every instruction and every step. Each noninterference statement is one such relation. -/

namespace Sys2Proof.Machine

/-- The registers an instruction reads or writes: its register operands, and SP under PUSH and POP (R20, R21). -/
def UsesReg (i : Instr) (k : Nat) : Prop :=
  (∃ o ∈ i.regOperands, o.toNat = k) ∨ ((∃ a, i = .push a ∨ i = .pop a) ∧ k = 7)

/-- Related states agree on what `i` reads beside memory, and each write `i` can make, made on both, leaves related
states. -/
structure Respects (i : Instr) (R : State → State → Prop) : Prop where
  pc_eq : ∀ {s s' : State}, R s s' → s'.pc = s.pc
  eSet_eq : ∀ {s s' : State}, R s s' → eSet s' = eSet s
  reg_eq : ∀ {s s' : State} (k : Nat) (hk : k < 8), UsesReg i k → R s s' → s'.x[k] = s.x[k]
  setPc : ∀ {s s' : State} (n : Nat), R s s' → R { s with pc := n } { s' with pc := n }
  setFl : ∀ {s s' : State} (f : Flags), R s s' → R { s with fl := f } { s' with fl := f }
  halt : ∀ {s s' : State}, R s s' → R { s with running := false } { s' with running := false }
  latch : ∀ {s s' : State} (r : FaultRecord), R s s' → R { s with fault := some r } { s' with fault := some r }
  output : ∀ {s s' : State} (v : Byte), R s s' → R (emit s v) (emit s' v)
  setReg : ∀ {s s' : State} (k : Nat) (hk : k < 8) (v : Byte), UsesReg i k → R s s' →
    R { s with x := s.x.set k v } { s' with x := s'.x.set k v }
  store : ∀ {s s' : State} (k : Nat) (v : Byte), (∃ a, i = .push a) → R s s' →
    R { s with mem := memSet s.mem k v } { s' with mem := memSet s'.mem k v }

section
variable {i : Instr} {R : State → State → Prop} {s s' : State}

theorem Respects.related_takeFault (hR : Respects i R) (h : R s s') (f : CoreFault) :
    R (takeFault f s) (takeFault f s') := by
  have he : takeFault f s' = { s' with fault := some ⟨f, s.pc⟩ } := by rw [takeFault, hR.pc_eq h]
  rw [he]
  exact hR.latch _ h

/-- A register operand, read on both sides. -/
theorem Respects.operand_eq (hR : Respects i R) (h : R s s') {a : Byte} (ha : a.toNat < 8)
    (hi : a ∈ i.regOperands) : s'.x[a.toNat] = s.x[a.toNat] :=
  hR.reg_eq _ ha (.inl ⟨a, hi, rfl⟩) h

/-- The rule by which an instruction completes applies on the related side too, with a related result, if POP finds the
same byte at SP. -/
theorem Completes.related (hR : Respects i R) (h : R s s')
    (hload : (∃ a, i = .pop a) → memGet s'.mem (s.x[7]).toNat = memGet s.mem (s.x[7]).toNat)
    {u : State} {p : PcUpdate} (hc : Completes i s u p) : ∃ u', Completes i s' u' p ∧ R u u' := by
  cases hc with
  | hlt => exact ⟨_, .hlt s', hR.halt h⟩
  | @ldi a b s ha => exact ⟨_, .ldi b s' ha, hR.setReg _ ha b (.inl ⟨a, .head _, rfl⟩) h⟩
  | @prn a s ha =>
    refine ⟨_, .prn s' ha, ?_⟩
    rw [hR.operand_eq h ha (.head _)]
    exact hR.output _ h
  | @add a b s ha hb =>
    refine ⟨_, .add s' ha hb, ?_⟩
    rw [hR.operand_eq h ha (.head _), hR.operand_eq h hb (.tail _ (.head _))]
    exact hR.setReg _ ha _ (.inl ⟨a, .head _, rfl⟩) h
  | @mul a b s ha hb =>
    refine ⟨_, .mul s' ha hb, ?_⟩
    rw [hR.operand_eq h ha (.head _), hR.operand_eq h hb (.tail _ (.head _))]
    exact hR.setReg _ ha _ (.inl ⟨a, .head _, rfl⟩) h
  | @cmp a b s ha hb =>
    refine ⟨_, .cmp s' ha hb, ?_⟩
    rw [hR.operand_eq h ha (.head _), hR.operand_eq h hb (.tail _ (.head _))]
    exact hR.setFl _ h
  | @push a s x1 hx ha =>
    subst hx
    have h7 : UsesReg (.push a) 7 := .inr ⟨⟨a, .inl rfl⟩, rfl⟩
    have h1 := hR.setReg 7 (by decide) (sub8 s.x[7] 1#8) h7 h
    refine ⟨_, .push s' _ rfl ha, ?_⟩
    rw [hR.reg_eq 7 (by decide) h7 h]
    have hv := hR.operand_eq h1 ha (.head _)
    have hsp := hR.reg_eq 7 (by decide) h7 h1
    simp only at hv hsp
    rw [hv, hsp]
    exact hR.store _ _ ⟨a, rfl⟩ h1
  | @pop a s x1 ha hx =>
    subst hx
    have h7 : UsesReg (.pop a) 7 := .inr ⟨⟨a, .inr rfl⟩, rfl⟩
    have h1 := hR.setReg _ ha (memGet s.mem (s.x[7]).toNat) (.inl ⟨a, .head _, rfl⟩) h
    refine ⟨_, .pop s' _ ha rfl, ?_⟩
    rw [hR.reg_eq 7 (by decide) h7 h, hload ⟨a, rfl⟩]
    have hsp := hR.reg_eq 7 (by decide) h7 h1
    simp only at hsp
    rw [hsp]
    exact hR.setReg 7 (by decide) _ h7 h1
  | @jmp a s ha =>
    refine ⟨_, .jmp s' ha, ?_⟩
    rw [hR.operand_eq h ha (.head _)]
    exact hR.setPc _ h
  | @jeq a s he ha =>
    refine ⟨_, .jeq s' ((hR.eSet_eq h).trans he) ha, ?_⟩
    rw [hR.operand_eq h ha (.head _)]
    exact hR.setPc _ h
  | jeqNotTaken a s he => exact ⟨_, .jeqNotTaken a s' ((hR.eSet_eq h).trans he), h⟩
  | @jne a s he ha =>
    refine ⟨_, .jne s' ((hR.eSet_eq h).trans he) ha, ?_⟩
    rw [hR.operand_eq h ha (.head _)]
    exact hR.setPc _ h
  | jneNotTaken a s he => exact ⟨_, .jneNotTaken a s' ((hR.eSet_eq h).trans he), h⟩

end

/-- The rules are the handlers' answers. -/
theorem Completes.handlerOf_eq {i : Instr} {s u : State} {p : PcUpdate} (h : Completes i s u p) :
    handlerOf i s = .ok (u, p) := by
  cases h with
  | hlt => rfl
  | ldi b s ha => exact handleLdi_valid b s ha
  | prn s ha => exact handlePrn_valid s ha
  | add s ha hb => exact aluInstr_add s ha hb
  | mul s ha hb => exact aluInstr_mul s ha hb
  | cmp s ha hb => exact aluInstr_cmp s ha hb
  | push s x1 hx ha => subst hx; exact handlePush_valid s ha
  | pop s x1 ha hx => subst hx; exact handlePop_valid s ha
  | jmp s ha => exact jumpToReg_valid s ha
  | jeq s he ha => exact (handleJeq_taken _ he).trans (jumpToReg_valid s ha)
  | jeqNotTaken a s he => exact handleJeq_not_taken a he
  | jne s he ha => exact (handleJne_taken _ he).trans (jumpToReg_valid s ha)
  | jneNotTaken a s he => exact handleJne_not_taken a he

/-- An instruction keeps a relation it respects. -/
theorem exec_related {i : Instr} {R : State → State → Prop} (hR : Respects i R) {s s' t : State} (h : R s s')
    (hload : (∃ a, i = .pop a) → memGet s'.mem (s.x[7]).toNat = memGet s.mem (s.x[7]).toNat)
    (ht : exec i s = .next t) : ∃ t', exec i s' = .next t' ∧ R t t' := by
  obtain ⟨r, hr, rfl⟩ | ⟨_, ⟨u, n, hu, rfl⟩ | hu⟩ := exec_cases ht
  · exact ⟨_, exec_of_firstInvalid ((hR.eSet_eq h).symm ▸ hr), hR.related_takeFault h _⟩
  · obtain ⟨u', hu', hrel⟩ := hu.related hR h hload
    refine ⟨{ u' with pc := s.pc + n }, ?_, hR.setPc _ hrel⟩
    rw [exec_eq_sequencePc, hu'.handlerOf_eq, sequencePc_advance, hR.pc_eq h]
  · obtain ⟨u', hu', hrel⟩ := hu.related hR h hload
    exact ⟨u', by rw [exec_eq_sequencePc, hu'.handlerOf_eq, sequencePc_pcSet], hrel⟩

/-- Fetch and decode read pc and the three bytes there. -/
theorem fetchDecode_congr {m : OpcodeMap} {s s' : State} (hpc : s'.pc = s.pc)
    (hmem : ∀ k, k = s.pc ∨ k = s.pc + 1 ∨ k = s.pc + 2 → memGet s'.mem k = memGet s.mem k) :
    fetchDecode m s' = fetchDecode m s := by
  have hread (k : Nat) (hk : k = s.pc ∨ k = s.pc + 1 ∨ k = s.pc + 2) : memRead s' k = memRead s k := by
    rw [memRead, memRead, hmem k hk]
  simp only [fetchDecode, fetch, memAddress, hpc, hread _ (.inl rfl), hread _ (.inr (.inl rfl)),
    hread _ (.inr (.inr rfl))]

/-- A step keeps a relation every instruction respects, between states whose gates, pc, bytes at pc and byte at SP are
the same. -/
theorem stepWith_related {R : State → State → Prop} (hR : ∀ i, Respects i R) {m : OpcodeMap} {s s' t : State}
    (h : R s s') (hr : s'.running = s.running) (hf : s'.fault = s.fault)
    (hmem : ∀ k, k = s.pc ∨ k = s.pc + 1 ∨ k = s.pc + 2 ∨ k = (s.x[7]).toNat → memGet s'.mem k = memGet s.mem k)
    (ht : stepWith m s = .next t) : ∃ t', stepWith m s' = .next t' ∧ R t t' := by
  obtain ⟨hrun, hnone, hstep⟩ := stepWith_next ht
  have hd : fetchDecode m s' = fetchDecode m s :=
    fetchDecode_congr ((hR .hlt).pc_eq h) fun k hk => hmem k (by tauto)
  obtain ⟨f, hbad, rfl⟩ | ⟨i, hi, hx⟩ := hstep
  · exact ⟨_, stepWith_of_fetchDecode_error (hr.trans hrun) (hf.trans hnone) (hd.trans hbad),
      (hR .hlt).related_takeFault h f⟩
  · rw [stepWith_of_fetchDecode_ok (hr.trans hrun) (hf.trans hnone) (hd.trans hi)]
    exact exec_related (hR i) h (fun _ => hmem _ (by tauto)) hx

/-! ### L and G (R32) -/

/-- The same state, or one with L set against the same with G set. -/
def SameButLessForGreater (s s' : State) : Prop := s' = s ∨ (s.fl = .less ∧ s' = { s with fl := .greater })

theorem respects_sameButLessForGreater (i : Instr) : Respects i SameButLessForGreater where
  pc_eq := by rintro s _ (rfl | ⟨_, rfl⟩) <;> rfl
  eSet_eq := by
    rintro s _ (rfl | ⟨hl, rfl⟩)
    · rfl
    · simp [eSet, hl]
  reg_eq := by rintro s _ k hk _ (rfl | ⟨_, rfl⟩) <;> rfl
  setPc := by rintro s _ n (rfl | ⟨hl, rfl⟩) <;> [exact .inl rfl; exact .inr ⟨hl, rfl⟩]
  setFl := by rintro s _ f (rfl | ⟨_, rfl⟩) <;> exact .inl rfl
  halt := by rintro s _ (rfl | ⟨hl, rfl⟩) <;> [exact .inl rfl; exact .inr ⟨hl, rfl⟩]
  latch := by rintro s _ r (rfl | ⟨hl, rfl⟩) <;> [exact .inl rfl; exact .inr ⟨hl, rfl⟩]
  output := by rintro s _ v (rfl | ⟨hl, rfl⟩) <;> [exact .inl rfl; exact .inr ⟨hl, rfl⟩]
  setReg := by rintro s _ k hk v _ (rfl | ⟨hl, rfl⟩) <;> [exact .inl rfl; exact .inr ⟨hl, rfl⟩]
  store := by rintro s _ k v _ (rfl | ⟨hl, rfl⟩) <;> [exact .inl rfl; exact .inr ⟨hl, rfl⟩]

/-- Settles O37: E is clear on both sides, and CMP, the one writer of FL, writes the same on both. -/
theorem lessAndGreaterAreNeverRead : Obligations.LessAndGreaterAreNeverRead := by
  intro m s t h
  have hrel : SameButLessForGreater { s with fl := .less } { s with fl := .greater } := .inr ⟨rfl, rfl⟩
  obtain ⟨u, hu, rfl | ⟨hl, rfl⟩⟩ :=
    stepWith_related respects_sameButLessForGreater hrel rfl rfl (fun _ _ => rfl) h
  · exact ⟨u, hu, rfl, .inl rfl⟩
  · exact ⟨_, hu, rfl, .inr ⟨hl, rfl⟩⟩

/-! ### The output (R38) -/

/-- The same state with `earlier` before its output. -/
def SameButEarlierOutput (earlier : List Byte) (s s' : State) : Prop := s' = { s with out := earlier ++ s.out }

theorem respects_sameButEarlierOutput (earlier : List Byte) (i : Instr) :
    Respects i (SameButEarlierOutput earlier) where
  pc_eq := by rintro s _ rfl; rfl
  eSet_eq := by rintro s _ rfl; rfl
  reg_eq := by rintro s _ k hk _ rfl; rfl
  setPc := by rintro s _ n rfl; rfl
  setFl := by rintro s _ f rfl; rfl
  halt := by rintro s _ rfl; rfl
  latch := by rintro s _ r rfl; rfl
  output := by rintro s _ v rfl; simp only [SameButEarlierOutput, emit, List.append_assoc]
  setReg := by rintro s _ k hk v _ rfl; rfl
  store := by rintro s _ k v _ rfl; rfl

/-- Settles O38: PRN appends at the end on both sides, and nothing reads the output. -/
theorem outputIsNeverReadBack : Obligations.OutputIsNeverReadBack := by
  intro m s t earlier h
  have hrel : SameButEarlierOutput earlier s { s with out := earlier ++ s.out } := rfl
  obtain ⟨_, hu, rfl⟩ := stepWith_related (respects_sameButEarlierOutput earlier) hrel rfl rfl (fun _ _ => rfl) h
  exact hu

/-! ### Registers an instruction does not use -/

/-- The same state with `v` in register `r`. -/
def SameButReg (r : Fin 8) (v : Byte) (s s' : State) : Prop := s' = { s with x := s.x.set r.val v r.isLt }

theorem respects_sameButReg {i : Instr} {r : Fin 8} (v : Byte) (hr : ¬ UsesReg i r.val) :
    Respects i (SameButReg r v) where
  pc_eq := by rintro s _ rfl; rfl
  eSet_eq := by rintro s _ rfl; rfl
  reg_eq := by
    rintro s _ k hk huse rfl
    exact Vector.getElem_set_ne r.isLt hk fun he => hr (he ▸ huse)
  setPc := by rintro s _ n rfl; rfl
  setFl := by rintro s _ f rfl; rfl
  halt := by rintro s _ rfl; rfl
  latch := by rintro s _ f rfl; rfl
  output := by rintro s _ w rfl; rfl
  setReg := by
    rintro s _ k hk w huse rfl
    have hne : r.val ≠ k := fun he => hr (he ▸ huse)
    simp only [SameButReg, Vector.set_comm _ _ hne]
  store := by rintro s _ k w _ rfl; rfl

/-- Settles O39: an instruction reads and writes only registers it uses, and a write to another register commutes with
a change of this one. -/
theorem unnamedRegistersAreNeverRead : Obligations.UnnamedRegistersAreNeverRead := by
  intro i s t r v hop hstack h
  have hunused : ¬ UsesReg i r.val := by
    rintro (⟨o, ho, he⟩ | ⟨hs, he⟩)
    · exact hop o ho he
    · exact hstack hs he
  have hrel : SameButReg r v s { s with x := s.x.set r.val v r.isLt } := rfl
  obtain ⟨_, hu, rfl⟩ := exec_related (respects_sameButReg v hunused) hrel (fun _ => rfl) h
  exact hu

/-! ### Memory elsewhere -/

/-- The same state but for the byte at one address. -/
def SameButByteAt (addr : Nat) (s s' : State) : Prop :=
  s' = { s with mem := s'.mem } ∧ ∀ b, b ≠ addr → memGet s'.mem b = memGet s.mem b

/-- A store on both sides leaves the memories the same but for that byte, wherever the store went. -/
theorem memGet_memSet_congr {addr : Nat} {mem mem' : List Host.Cell} (k : Nat) (v : Byte)
    (h : ∀ b, b ≠ addr → memGet mem' b = memGet mem b) :
    ∀ b, b ≠ addr → memGet (memSet mem' k v) b = memGet (memSet mem k v) b := by
  intro b hb
  by_cases hk : k = b
  · subst hk; rw [memGet_memSet_same, memGet_memSet_same]
  · rw [memGet_memSet_other _ _ _ _ hk, memGet_memSet_other _ _ _ _ hk, h b hb]

theorem respects_sameButByteAt (addr : Nat) (i : Instr) : Respects i (SameButByteAt addr) where
  pc_eq := by rintro s _ ⟨h, _⟩; rw [h]
  eSet_eq := by rintro s _ ⟨h, _⟩; rw [h]; rfl
  reg_eq := by rintro s _ k hk _ ⟨h, _⟩; rw [h]
  setPc := by rintro s _ n ⟨h, hm⟩; exact ⟨by rw [h], hm⟩
  setFl := by rintro s _ f ⟨h, hm⟩; exact ⟨by rw [h], hm⟩
  halt := by rintro s _ ⟨h, hm⟩; exact ⟨by rw [h], hm⟩
  latch := by rintro s _ r ⟨h, hm⟩; exact ⟨by rw [h], hm⟩
  output := by rintro s _ v ⟨h, hm⟩; exact ⟨by rw [h]; rfl, hm⟩
  setReg := by rintro s _ k hk v _ ⟨h, hm⟩; exact ⟨by rw [h], hm⟩
  store := by rintro s _ k v _ ⟨h, hm⟩; exact ⟨by rw [h], memGet_memSet_congr k v hm⟩

/-- Settles O40: a step reads memory at pc, pc + 1, pc + 2 and SP only, and a store on both sides keeps the memories the
same elsewhere. -/
theorem otherMemoryIsNeverRead : Obligations.OtherMemoryIsNeverRead := by
  intro m s t addr v h0 h1 h2 hsp h
  have hother (k : Nat) (hk : k ≠ addr) : memGet (memSet s.mem addr v) k = memGet s.mem k :=
    memGet_memSet_other _ _ _ _ hk.symm
  have hrel : SameButByteAt addr s { s with mem := memSet s.mem addr v } := ⟨rfl, hother⟩
  rw [sp_eq] at hsp
  obtain ⟨u, hu, he, hm⟩ :=
    stepWith_related (respects_sameButByteAt addr) hrel rfl rfl (fun k hk => hother k (by omega)) h
  exact ⟨u, hu, by rw [he], by rw [he], by rw [he], by rw [he], by rw [he], by rw [he], hm⟩

end Sys2Proof.Machine
end

section
/-! SUPPORT. The decoder's table of control signals (40_execution_cycle R114), column by column, against the encoding
and against what the instructions do. -/

namespace Sys2Proof.Machine

/-! ### The columns -/

theorem signals_length (i : Instr) (e : Bool) : (signals i e).length = lengthOf i.mnemonic := by
  cases i with
  | jeq a | jne a => cases e <;> rfl
  | _ => rfl

theorem signals_format (i : Instr) (e : Bool) : (signals i e).format = formatOf i.mnemonic := by
  cases i with
  | jeq a | jne a => cases e <;> rfl
  | _ => rfl

/-- The memory column: PUSH writes the stack, POP reads it. -/
def memoryColumn : Instr → Option MemSource
  | .push _ => some .stackW
  | .pop _ => some .stackR
  | _ => none

/-- The ALU column: one kind for each of the three ALU instructions. -/
def aluColumn : Instr → Option AluKind
  | .add _ _ => some .add
  | .mul _ _ => some .mul
  | .cmp _ _ => some .cmp
  | _ => none

/-- Whether a branch is taken does not change its memory column. -/
theorem signals_memory (i : Instr) (e : Bool) : (signals i e).memory = memoryColumn i := by
  cases i with
  | jeq a | jne a => cases e <;> rfl
  | _ => rfl

/-- Nor its ALU column. -/
theorem signals_aluOp (i : Instr) (e : Bool) : (signals i e).aluOp = aluColumn i := by
  cases i with
  | jeq a | jne a => cases e <;> rfl
  | _ => rfl

section
variable {i : Instr}

theorem memoryColumn_eq_stackW : memoryColumn i = some .stackW ↔ ∃ a, i = .push a := by
  cases i <;> simp [memoryColumn]

theorem memoryColumn_eq_stackR : memoryColumn i = some .stackR ↔ ∃ a, i = .pop a := by
  cases i <;> simp [memoryColumn]

theorem memoryColumn_stack {src : MemSource} (h : memoryColumn i = some src) : src = .stackW ∨ src = .stackR := by
  cases i with
  | push a => cases h; exact .inl rfl
  | pop a => cases h; exact .inr rfl
  | _ => cases h

theorem aluColumn_eq_add : aluColumn i = some .add ↔ ∃ a b, i = .add a b := by
  cases i <;> simp [aluColumn]

theorem aluColumn_eq_mul : aluColumn i = some .mul ↔ ∃ a b, i = .mul a b := by
  cases i <;> simp [aluColumn]

theorem aluColumn_eq_cmp : aluColumn i = some .cmp ↔ ∃ a b, i = .cmp a b := by
  cases i <;> simp [aluColumn]

theorem aluColumn_supported {k : AluKind} (h : aluColumn i = some k) : k = .add ∨ k = .mul ∨ k = .cmp := by
  cases i with
  | add a b => cases h; exact .inl rfl
  | mul a b => cases h; exact .inr (.inl rfl)
  | cmp a b => cases h; exact .inr (.inr rfl)
  | _ => cases h

end

/-! ### What a completing instruction does, by column -/

section
variable {i : Instr} {s t u : State} {p : PcUpdate}

/-- The pc source is the pc contract of the handler: pc + N, or the register the jump went to. -/
theorem Completes.pcSource (h : Completes i s u p) :
    (∃ n, p = .advance n ∧ (signals i (eSet s)).pcSource = .plus n) ∨
    (∃ (r : Byte) (hr : r.toNat < 8), p = .pcSet ∧ (signals i (eSet s)).pcSource = .register r ∧
      u.pc = (s.x[r.toNat]).toNat) := by
  cases h with
  | @jmp a _ ha => exact .inr ⟨a, ha, rfl, rfl, rfl⟩
  | @jeq a _ he ha => exact .inr ⟨a, ha, rfl, by rw [he]; rfl, rfl⟩
  | @jne a _ he ha => exact .inr ⟨a, ha, rfl, by rw [he]; rfl, rfl⟩
  | jeqNotTaken a _ he | jneNotTaken a _ he => exact .inl ⟨2, rfl, by rw [he]; rfl⟩
  | _ => exact .inl ⟨_, rfl, rfl⟩

/-- The pc a completing instruction leaves is the pc source's. -/
theorem exec_pc_eq_pcSource (hv : firstInvalid i (eSet s) = none) (h : exec i s = .next t) :
    (∀ n, (signals i (eSet s)).pcSource = .plus n → t.pc = s.pc + n) ∧
    (∀ r, (signals i (eSet s)).pcSource = .register r → ∃ _h : r.toNat < 8, t.pc = (s.x[r.toNat]).toNat) := by
  obtain ⟨r, hr, _⟩ | ⟨_, ⟨u, n, hu, rfl⟩ | hu⟩ := exec_cases h
  · rw [hv] at hr; cases hr
  · obtain ⟨n', hn, hsrc⟩ | ⟨_, _, hn, _⟩ := hu.pcSource
    · cases hn
      rw [hsrc]
      exact ⟨fun _ he => by cases he; rfl, nofun⟩
    · cases hn
  · obtain ⟨_, hn, _⟩ | ⟨r, hr, _, hsrc, hpc⟩ := hu.pcSource
    · cases hn
    · rw [hsrc]
      exact ⟨nofun, fun _ he => by cases he; exact ⟨hr, hpc⟩⟩

theorem exec_fault_eq (hv : firstInvalid i (eSet s) = none) (h : exec i s = .next t) : t.fault = s.fault := by
  obtain ⟨r, hr, _⟩ | ⟨_, ht, _⟩ := exec_eq_next h
  · rw [hv] at hr; cases hr
  · exact ht

/-- STACK_W: the register, read after the decrement, is stored at the decremented SP. -/
theorem exec_push_stackW {a : Byte} (ha : a.toNat < 8) (h : exec (.push a) s = .next t) :
    let s1 := setSp s (s.x[7] - 1#8)
    memAddress .stackW s1 = (s.x[7] - 1#8).toNat ∧
    ∃ v, readReg s1 a = .ok v ∧ t.mem = memSet s.mem (memAddress .stackW s1) v ∧ t.x = s1.x := by
  intro s1
  have haddr : memAddress .stackW s1 = (s.x[7] - 1#8).toNat := by rw [memAddress_stackW, sp_setSp]
  cases (exec_push_valid s ha).symm.trans h
  exact ⟨haddr, _, readReg_valid s1 ha, by rw [haddr]; rfl, rfl⟩

/-- STACK_R: the byte at SP goes to the register, then SP is incremented. -/
theorem exec_pop_stackR {a : Byte} (ha : a.toNat < 8) (h : exec (.pop a) s = .next t) :
    memAddress .stackR s = (s.x[7]).toNat ∧
    ∃ s1, writeReg s a (memGet s.mem (memAddress .stackR s)) = .ok s1 ∧
      t.x = s1.x.set 7 (s1.x[7] + 1#8) ∧ t.mem = s.mem := by
  cases (exec_pop_valid s ha).symm.trans h
  exact ⟨rfl, _, writeReg_valid s _ ha, rfl, rfl⟩

/-- The same state with another memory. -/
def SameButMem (mem : List Host.Cell) (s s' : State) : Prop := s' = { s with mem := mem }

/-- An instruction that stores nothing has no write that tells the two apart. -/
theorem respects_sameButMem (mem : List Host.Cell) (hi : ∀ a, i ≠ .push a) : Respects i (SameButMem mem) where
  pc_eq := by rintro s _ rfl; rfl
  eSet_eq := by rintro s _ rfl; rfl
  reg_eq := by rintro s _ k hk _ rfl; rfl
  setPc := by rintro s _ n rfl; rfl
  setFl := by rintro s _ f rfl; rfl
  halt := by rintro s _ rfl; rfl
  latch := by rintro s _ r rfl; rfl
  output := by rintro s _ v rfl; rfl
  setReg := by rintro s _ k hk v _ rfl; rfl
  store := by rintro s _ k v ⟨a, ha⟩; exact absurd ha (hi a)

/-- No memory access: memory is neither written nor read. -/
theorem exec_no_memory (hi : memoryColumn i = none) (h : exec i s = .next t) :
    t.mem = s.mem ∧ ∀ mem, exec i { s with mem := mem } = .next { t with mem := mem } := by
  have hpush : ∀ a, i ≠ .push a := by rintro a rfl; cases hi
  have hpop : ∀ a, i ≠ .pop a := by rintro a rfl; cases hi
  constructor
  · obtain ⟨_, _, rfl⟩ | ⟨u, p, n, hc, rfl⟩ := exec_cases_upto_pc h
    · rfl
    · obtain hu | ⟨a, _, ha, _⟩ := hc.mem
      · exact hu
      · exact absurd ha (hpush a)
  · intro mem
    have hrel : SameButMem mem s { s with mem := mem } := rfl
    obtain ⟨_, hu, rfl⟩ := exec_related (respects_sameButMem mem hpush) hrel (fun ⟨a, ha⟩ => absurd ha (hpop a)) h
    exact hu

/-- An ALU kind: what the instruction writes is the ALU's output for that kind on the two checked registers. -/
theorem Completes.alu_outputs {k : AluKind} (h : Completes i s u p) (hk : aluColumn i = some k) :
    ∃ a b v w o, (signals i (eSet s)).checked = [a, b] ∧ readReg s a = .ok v ∧ readReg s b = .ok w ∧
      alu k v w = .ok o ∧ (∀ r, o.res = some r → writeReg s a r = .ok { s with x := u.x }) ∧
      (o.res = none → u.x = s.x) ∧ u.fl = o.fl.getD s.fl := by
  cases h with
  | @add a b _ ha hb | @mul a b _ ha hb =>
    cases hk
    exact ⟨a, b, _, _, _, rfl, readReg_valid s ha, readReg_valid s hb, rfl,
      fun _ hr => by cases hr; exact writeReg_valid s _ ha, nofun, rfl⟩
  | @cmp a b _ ha hb =>
    cases hk
    exact ⟨a, b, _, _, _, rfl, readReg_valid s ha, readReg_valid s hb, rfl, nofun, fun _ => rfl, rfl⟩
  | _ => cases hk

end

/-- Settles O13: the static columns by the table, an invalid register by fault entry, and a completing instruction
column by column. -/
theorem controlSignalsDescribeEveryInstruction : Obligations.ControlSignalsDescribeEveryInstruction := by
  intro i s
  rw [signals_memory, signals_aluOp]
  refine ⟨signals_length i _, signals_format i _, memoryColumn_eq_stackW, memoryColumn_eq_stackR,
    fun _ => memoryColumn_stack, aluColumn_eq_add, aluColumn_eq_mul, aluColumn_eq_cmp, fun _ => aluColumn_supported,
    fun r hr => exec_of_firstInvalid hr, fun hv => ?_⟩
  obtain ⟨t, h⟩ := exec_next i s
  obtain ⟨hplus, hregister⟩ := exec_pc_eq_pcSource hv h
  have hvalid := firstInvalid_eq_none hv
  refine ⟨t, h, exec_fault_eq hv h, hplus, hregister, fun hW => ?_, fun hR => ?_, fun hm => exec_no_memory hm h,
    fun k hk => ?_, fun hk => exec_fl_of_ne_cmp ?_ h⟩
  · obtain ⟨a, rfl⟩ := memoryColumn_eq_stackW.1 hW
    obtain ⟨haddr, v, hv⟩ := exec_push_stackW (hvalid a (.head _)) h
    exact ⟨haddr, a, v, rfl, hv⟩
  · obtain ⟨a, rfl⟩ := memoryColumn_eq_stackR.1 hR
    obtain ⟨haddr, s1, hs1⟩ := exec_pop_stackR (hvalid a (.head _)) h
    exact ⟨haddr, a, s1, rfl, hs1⟩
  · obtain ⟨r, hr, _⟩ | ⟨_, ⟨u, n, hu, rfl⟩ | hu⟩ := exec_cases h
    · rw [hv] at hr; cases hr
    · exact hu.alu_outputs hk
    · exact hu.alu_outputs hk
  · rintro a b rfl
    cases hk

end Sys2Proof.Machine
end

section
/-! SUPPORT. The statements of spec/70_reset_and_hazards.md about reset, the launch state and the host's load port, and
of spec/40_execution_cycle.md about how a run ends. -/

namespace Sys2Proof.Machine

/-! ### Reset and launch (R230, R231) -/

/-- Memory after reset reads as 0 wherever it can be read (D6). -/
theorem memRead_reset (addr : Nat) :
    memRead State.reset addr = if addr < 256 then .ok 0#8 else .error (.outOfBoundsMemory addr) := rfl

/-- Settles O43: eight registers, and a memory with nothing listed. -/
theorem resetLeavesTheStartupState : Obligations.ResetLeavesTheStartupState :=
  ⟨by decide, rfl, rfl, rfl, rfl, memRead_reset, rfl⟩

/-- Loading an image that fits puts it at `addr` and leaves memory elsewhere as it was (R233). -/
theorem loadBytes_of_fits {img : List Byte} {addr : Nat} (s : State) (h : addr + img.length ≤ 256) :
    ∃ t, loadBytes addr img s = .ok t ∧
      ∀ k, memGet t.mem k = if addr ≤ k then img.getD (k - addr) (memGet s.mem k) else memGet s.mem k := by
  induction img generalizing addr s with
  | nil => exact ⟨s, rfl, fun k => by simp⟩
  | cons v rest ih =>
    rw [List.length_cons] at h
    obtain ⟨t, ht, hread⟩ := ih (addr := addr + 1) { s with mem := memSet s.mem addr v } (by omega)
    refine ⟨t, by rw [loadBytes, memWrite_of_lt s v (by omega)]; exact ht, fun k => ?_⟩
    rw [hread k]
    obtain hlt | rfl | hgt := Nat.lt_trichotomy k addr
    · rw [if_neg (by omega), if_neg (by omega), memGet_memSet_other _ _ _ _ (by omega)]
    · rw [if_neg (by omega), if_pos (Nat.le_refl k), memGet_memSet_same, Nat.sub_self, List.getD_cons_zero]
    · rw [if_pos (Nat.succ_le_of_lt hgt), if_pos (by omega), memGet_memSet_other _ _ _ _ (by omega),
        show k - addr = k - (addr + 1) + 1 by omega, List.getD_cons_succ]

/-- Loading an image that does not fit is refused at address 256 (R67). -/
theorem loadBytes_of_too_long {img : List Byte} {addr : Nat} (s : State) (ha : addr ≤ 256)
    (h : 256 < addr + img.length) : loadBytes addr img s = .error (.outOfBoundsMemory 256) := by
  induction img generalizing addr s with
  | nil => rw [List.length_nil] at h; omega
  | cons v rest ih =>
    rw [List.length_cons] at h
    obtain hlt | rfl := Nat.lt_or_eq_of_le ha
    · rw [loadBytes, memWrite_of_lt s v hlt]
      exact ih _ hlt (by omega)
    · rw [loadBytes, memWrite_of_ge s v (Nat.le_refl _)]; rfl

/-- Settles O47: the image is loaded from 0 over a memory that reads as 0 everywhere. -/
theorem launchPutsTheImageAtZero : Obligations.LaunchPutsTheImageAtZero := by
  intro img
  constructor
  · intro h
    obtain ⟨s, hs, hread⟩ := loadBytes_of_fits (img := img) (addr := 0) State.reset (by omega)
    exact ⟨s, hs, loadBytes_frame hs, fun k => (hread k).trans (if_pos (Nat.zero_le k))⟩
  · intro h
    exact loadBytes_of_too_long State.reset (by omega) (by omega)

/-! ### The ends of a run (R125, R126) -/

section
variable {s : State}

theorem endOf_eq_halted : endOf s = some .halted ↔ s.running = false ∧ s.fault = none := by
  unfold endOf
  cases s.fault <;> cases s.running <;> simp

theorem endOf_eq_faulted {r : FaultRecord} : endOf s = some (.faulted r) ↔ s.fault = some r := by
  unfold endOf
  cases s.fault <;> cases s.running <;> simp

theorem endOf_eq_none : endOf s = none ↔ s.running = true ∧ s.fault = none := by
  unfold endOf
  cases s.fault <;> cases s.running <;> simp

end

/-- Settles O48: a run goes on exactly where the gate is open, and there a step is possible. -/
theorem runEndsExactlyWhereNoStepIs : Obligations.RunEndsExactlyWhereNoStepIs := by
  intro m s
  obtain ⟨hgate, -, -⟩ := stepIsPossibleExactlyWhenRunning m s
  exact ⟨endOf_eq_halted, fun _ => endOf_eq_faulted, endOf_eq_none.trans hgate.symm⟩

/-- A run that has ended takes no step. -/
theorem runWith_of_ended {m : OpcodeMap} {k : Nat} {s t : State} (hs : endOf s ≠ none) (h : runWith m k s = some t) :
    k = 0 ∧ t = s := by
  cases k with
  | zero => cases h; exact ⟨rfl, rfl⟩
  | succ k =>
    obtain ⟨u, hu, _⟩ := runWith_succ_eq_some h
    obtain ⟨-, -, hgoes⟩ := runEndsExactlyWhereNoStepIs m s
    exact absurd (hgoes.2 ⟨u, hu⟩) hs

/-- Two ends of runs from one state are the same, after the same number of steps: the step is a function, and an end
has none. -/
theorem runWith_end_unique {m : OpcodeMap} {j k : Nat} {s t u : State} (hj : runWith m j s = some t)
    (ht : endOf t ≠ none) (hk : runWith m k s = some u) (hu : endOf u ≠ none) : j = k ∧ t = u := by
  induction j generalizing s k with
  | zero =>
    cases hj
    obtain ⟨rfl, rfl⟩ := runWith_of_ended ht hk
    exact ⟨rfl, rfl⟩
  | succ j ih =>
    cases k with
    | zero =>
      cases hk
      obtain ⟨hj0, _⟩ := runWith_of_ended hu hj
      cases hj0
    | succ k =>
      obtain ⟨v, hv, hj⟩ := runWith_succ_eq_some hj
      obtain ⟨w, hw, hk⟩ := runWith_succ_eq_some hk
      cases hv.symm.trans hw
      obtain ⟨rfl, rfl⟩ := ih hj hk
      exact ⟨rfl, rfl⟩

/-- Settles O49: two ends of one run are one state, which cannot be halted and faulted, and a halted one has no fault. -/
theorem runHasAtMostOneEnd : Obligations.RunHasAtMostOneEnd := by
  intro m s t u j k
  have ended {v : State} {e : RunEnd} (h : endOf v = some e) : endOf v ≠ none := by rw [h]; nofun
  refine ⟨?_, ?_, ?_, ?_⟩
  · rintro ⟨hj, ht⟩ ⟨hk, hu⟩
    exact runWith_end_unique hj (ended ht) hk (ended hu)
  · rintro r q ⟨hj, ht⟩ ⟨hk, hu⟩
    obtain ⟨rfl, rfl⟩ := runWith_end_unique hj (ended ht) hk (ended hu)
    cases ht.symm.trans hu
    exact ⟨rfl, rfl, rfl⟩
  · rintro r ⟨hj, ht⟩ ⟨hk, hu⟩
    obtain ⟨rfl, rfl⟩ := runWith_end_unique hj (ended ht) hk (ended hu)
    cases ht.symm.trans hu
  · rintro ⟨hj, ht⟩
    obtain ⟨_, hf⟩ := endOf_eq_halted.1 ht
    exact ⟨t, hj, hf⟩

/-! ### The load port (R233) -/

/-- A step closes the load port. -/
theorem blockStep_loading {m : OpcodeMap} {b c : Block} (h : blockStep m b = .next c) : c.loading = false := by
  unfold blockStep at h
  split at h <;> cases h
  rfl

/-- Settles O52: the port is a write of one cell while the loading bit is set; a step clears the bit, reset sets it. -/
theorem hostLoadsOnlyBeforeTheFirstStep : Obligations.HostLoadsOnlyBeforeTheFirstStep := by
  refine ⟨fun m b c addr v h => ?_, fun b addr v hb => ?_, rfl, rfl⟩
  · simp [blockLoad, blockStep_loading h]
  · refine ⟨_, if_pos hb, rfl, memGet_memSet_same _ _ _, rfl, fun k hk => ?_⟩
    exact memGet_memSet_other _ _ _ _ hk.symm

end Sys2Proof.Machine
end

section
/-! SUPPORT. What the host is shown: the fault ports of spec/60_exceptions.md R201 and the output's text of
spec/41_data_movement.md R143. -/

namespace Sys2Proof.Machine

/-! ### The fault ports -/

theorem aluKindCode_lt (k : AluKind) : aluKindCode k < 8 := by
  cases k <;> decide

/-- The ports with a record latched. -/
theorem ports_of_fault {s : State} {c : CoreFault} {pc : Nat} (h : s.fault = some ⟨c, pc⟩) (hpc : pc < 512) :
    (ports s).faultValid = true ∧ (ports s).faultCode = faultCode (some ⟨c, pc⟩) ∧
      (ports s).faultInfo = faultInfo (some ⟨c, pc⟩) ∧ (ports s).faultPc.toNat = pc := by
  have hports : ports s = ⟨s.running, true, faultCode (some ⟨c, pc⟩), faultInfo (some ⟨c, pc⟩), BitVec.ofNat 9 pc,
      s.pc⟩ := by
    rw [ports, h]; rfl
  rw [hports]
  exact ⟨rfl, rfl, rfl, (BitVec.toNat_ofNat _ _).trans (Nat.mod_eq_of_lt hpc)⟩

/-- A byte as `fault_info` keeps its value. -/
theorem byte_setWidth_nine (v : Byte) : (v.setWidth 9).toNat = v.toNat := by
  rw [BitVec.toNat_setWidth, Nat.mod_eq_of_lt (by omega)]

/-- Settles O50: nine bits hold an address, a byte and a kind's code. -/
theorem faultPortsShowTheLatch : Obligations.FaultPortsShowTheLatch := by
  refine ⟨fun s h => ?_, fun s addr pc h ha hpc => ?_, fun s i pc h hpc => ?_, fun s op pc h hpc => ?_,
    fun s k pc h hpc => ?_, rfl⟩
  · simp only [ports, h]; exact ⟨rfl, rfl, rfl⟩
  all_goals
    obtain ⟨hvalid, hcode, hinfo, hpc⟩ := ports_of_fault h hpc
    refine ⟨hvalid, hcode, ?_, hpc⟩
    rw [hinfo]
  · exact (BitVec.toNat_ofNat _ _).trans (Nat.mod_eq_of_lt ha)
  · exact byte_setWidth_nine i
  · exact byte_setWidth_nine op
  · have hk := aluKindCode_lt k
    exact (BitVec.toNat_ofNat _ _).trans (Nat.mod_eq_of_lt (by omega))

/-! ### The output's text -/

/-- The digits of a byte: one, two or three, by its size. -/
theorem decimal_cases (v : Byte) :
    (v.toNat < 10 ∧ decimal v = [digitChar v.toNat]) ∨
    (10 ≤ v.toNat ∧ v.toNat < 100 ∧ decimal v = [digitChar (v.toNat / 10), digitChar (v.toNat % 10)]) ∨
    (100 ≤ v.toNat ∧ v.toNat < 256 ∧
      decimal v = [digitChar (v.toNat / 100), digitChar (v.toNat / 10 % 10), digitChar (v.toNat % 10)]) := by
  have hv := byte_lt_memSize v
  simp only [decimal]
  split_ifs with h1 h2
  · exact .inl ⟨h1, rfl⟩
  · exact .inr (.inl ⟨by omega, h2, rfl⟩)
  · exact .inr (.inr ⟨by omega, hv, rfl⟩)

theorem digitChar_range {n : Nat} (h : n < 10) : 48 ≤ (digitChar n).toNat ∧ (digitChar n).toNat ≤ 57 := by
  rw [digitChar_toNat h]; omega

/-- A digit's value is read back from its character. -/
theorem digitChar_value {n : Nat} (h : n < 10) : (digitChar n).toNat - 48 = n := by
  rw [digitChar_toNat h]; omega

/-- The digits give the value back, most significant first. -/
theorem decimal_value (v : Byte) : (decimal v).foldl (fun n c => 10 * n + (c.toNat - 48)) 0 = v.toNat := by
  obtain ⟨h, hd⟩ | ⟨h, h', hd⟩ | ⟨h, h', hd⟩ := decimal_cases v
  all_goals
    rw [hd]
    simp (disch := omega) only [List.foldl_cons, List.foldl_nil, digitChar_value]
    omega

theorem decimal_digits (v : Byte) : ∀ c ∈ decimal v, 48 ≤ c.toNat ∧ c.toNat ≤ 57 := by
  obtain ⟨h, hd⟩ | ⟨h, h', hd⟩ | ⟨h, h', hd⟩ := decimal_cases v
  all_goals
    rw [hd]
    simp only [List.forall_mem_cons, List.not_mem_nil, false_imp_iff, implies_true, and_true]
  · exact digitChar_range h
  · exact ⟨digitChar_range (by omega), digitChar_range (by omega)⟩
  · exact ⟨digitChar_range (by omega), digitChar_range (by omega), digitChar_range (by omega)⟩

/-- A leading zero is the single digit of 0: the first of two or three digits is the quotient of a value that reaches
its divisor. -/
theorem decimal_leading_zero {v : Byte} (h : (decimal v).head? = some '0') : decimal v = ['0'] := by
  obtain ⟨hv, hd⟩ | ⟨hv, hv', hd⟩ | ⟨hv, hv', hd⟩ := decimal_cases v
  all_goals
    rw [hd, List.head?_cons, Option.some.injEq] at h
  · rw [hd, h]
  · rw [digitChar_eq_zero (by omega)] at h; omega
  · rw [digitChar_eq_zero (by omega)] at h; omega

theorem decimal_ne_nil (v : Byte) : decimal v ≠ [] := by
  obtain ⟨_, hd⟩ | ⟨_, _, hd⟩ | ⟨_, _, hd⟩ := decimal_cases v <;> rw [hd] <;> exact List.cons_ne_nil _ _

/-- Settles O51: the digits by the size of the byte, and the text value by value. -/
theorem outputTextIsCanonicalDecimal : Obligations.OutputTextIsCanonicalDecimal := by
  refine ⟨fun v => ⟨decimal_value v, decimal_digits v, decimal_ne_nil v, decimal_leading_zero⟩, by decide, by decide,
    rfl, fun o v => ?_⟩
  simp only [outText, List.flatMap_append, List.flatMap_cons, List.flatMap_nil, List.append_nil, List.append_assoc]

end Sys2Proof.Machine
end

section
/-! SUPPORT. The statements of spec/70_reset_and_hazards.md about the image file (R208, R235): lines, comments, blanks
and the eight digits of a byte. -/

namespace Sys2Proof.Machine

/-! ### The lines of a text -/

/-- A text without line feed is one line. -/
theorem splitLines_of_notMem {line : List Char} (h : '\n' ∉ line) : splitLines line = [line] := by
  induction line with
  | nil => rfl
  | cons c rest ih =>
    obtain ⟨hc, hrest⟩ := not_or.1 (mt List.mem_cons.2 h)
    simp only [splitLines, if_neg (Ne.symm hc), ih hrest]

/-- What follows a text without line feed of its own extends the text's last line. -/
theorem splitLines_append_of_notMem (before : List Char) {tail : List Char} (h : '\n' ∉ tail) :
    ∃ pre last, splitLines before = pre ++ [last] ∧ splitLines (before ++ tail) = pre ++ [last ++ tail] := by
  induction before with
  | nil => exact ⟨[], [], rfl, splitLines_of_notMem h⟩
  | cons c rest ih =>
    obtain ⟨pre, last, hrest, happ⟩ := ih
    by_cases hc : c = '\n'
    · exact ⟨[] :: pre, last, by simp [splitLines, hc, hrest], by simp [splitLines, hc, happ]⟩
    · cases pre with
      | nil => exact ⟨[], c :: last, by simp [splitLines, hc, hrest], by simp [splitLines, hc, happ]⟩
      | cons l ls => exact ⟨(c :: l) :: ls, last, by simp [splitLines, hc, hrest], by simp [splitLines, hc, happ]⟩

/-! ### The token of a line -/

theorem isBlankChar_iff {c : Char} : isBlankChar c = true ↔ c = ' ' ∨ c = '\t' ∨ c = '\r' := by
  simp [isBlankChar, or_assoc]

/-- A blank line holds neither `#` nor line feed. -/
theorem notMem_of_blank {blank : List Char} (h : ∀ c ∈ blank, isBlankChar c = true) {d : Char}
    (hd : isBlankChar d = false) : d ∉ blank := fun hm => by
  rw [h d hm] at hd; cases hd

theorem trimBlank_of_blank {blank : List Char} (h : ∀ c ∈ blank, isBlankChar c = true) : trimBlank blank = [] := by
  rw [trimBlank, List.dropWhile_eq_nil_iff.2 h]; rfl

/-- White space before a character that is none is dropped. -/
theorem dropWhile_blank_append {blank rest : List Char} (h : ∀ c ∈ blank, isBlankChar c = true)
    (hrest : ∀ c, rest.head? = some c → isBlankChar c = false) :
    (blank ++ rest).dropWhile isBlankChar = rest := by
  rw [List.dropWhile_append_of_pos h]
  cases rest with
  | nil => rfl
  | cons c cs => rw [List.dropWhile_cons_of_neg]; simp [hrest c rfl]

/-- White space around a token is dropped. -/
theorem trimBlank_token {lead token trail : List Char} (hlead : ∀ c ∈ lead, isBlankChar c = true)
    (htrail : ∀ c ∈ trail, isBlankChar c = true) (hne : token ≠ [])
    (hhead : ∀ c, token.head? = some c → isBlankChar c = false)
    (hlast : ∀ c, token.getLast? = some c → isBlankChar c = false) :
    trimBlank (lead ++ token ++ trail) = token := by
  have hfront : (lead ++ (token ++ trail)).dropWhile isBlankChar = token ++ trail :=
    dropWhile_blank_append hlead fun c hc => hhead c (by rwa [List.head?_append_of_ne_nil _ hne] at hc)
  have hback : (trail.reverse ++ token.reverse).dropWhile isBlankChar = token.reverse :=
    dropWhile_blank_append (by simpa using htrail) fun c hc => hlast c (by rwa [List.head?_reverse] at hc)
  rw [List.append_assoc, trimBlank, hfront, List.reverse_append, hback, List.reverse_reverse]

/-! ### The parse, line by line -/

section
variable {n : Nat} {line : List Char} {rest : List (List Char)}

/-- The parse sees of a line its token only. -/
theorem parseLines_cons_congr {line' : List Char}
    (h : trimBlank (stripComment line) = trimBlank (stripComment line')) :
    parseLines n (line :: rest) = parseLines n (line' :: rest) := by
  simp only [parseLines, h]

theorem parseLines_blank (h : trimBlank (stripComment line) = []) :
    parseLines n (line :: rest) = parseLines (n + 1) rest := by
  simp only [parseLines, h]

theorem parseLines_literal {token : List Char} {v : Byte} (htoken : trimBlank (stripComment line) = token)
    (hne : token ≠ []) (hv : binaryLiteral token = some v) :
    parseLines n (line :: rest) = (parseLines (n + 1) rest).map (fun vs => v :: vs) := by
  rw [parseLines, htoken]
  split
  next => exact absurd rfl hne
  next =>
    rw [hv]
    cases parseLines (n + 1) rest <;> rfl

theorem parseLines_malformed {token : List Char} (htoken : trimBlank (stripComment line) = token) (hne : token ≠ [])
    (hv : binaryLiteral token = none) : parseLines n (line :: rest) = .error (.malformedProgramLine n) := by
  rw [parseLines, htoken]
  split
  next => exact absurd rfl hne
  next => rw [hv]

end

/-- The parse of lines and more lines: the bytes of the first, then those of the others. -/
theorem parseLines_append (n : Nat) (lines more : List (List Char)) :
    parseLines n (lines ++ more) =
      (parseLines n lines).bind fun vs => (parseLines (n + lines.length) more).map (fun ws => vs ++ ws) := by
  induction lines generalizing n with
  | nil =>
    show parseLines n more = (parseLines n more).map id
    cases parseLines n more <;> rfl
  | cons line rest ih =>
    have hlen : n + (line :: rest).length = n + 1 + rest.length := by rw [List.length_cons]; omega
    rw [List.cons_append, hlen]
    by_cases hblank : trimBlank (stripComment line) = []
    · rw [parseLines_blank hblank, parseLines_blank hblank, ih]
    · cases hv : binaryLiteral (trimBlank (stripComment line)) with
      | none => rw [parseLines_malformed rfl hblank hv, parseLines_malformed rfl hblank hv]; rfl
      | some v =>
        rw [parseLines_literal rfl hblank hv, parseLines_literal rfl hblank hv, ih]
        cases parseLines (n + 1) rest <;> cases parseLines (n + 1 + rest.length) more <;> rfl

/-- Lines that parse alike from every number can stand for each other after any lines. -/
theorem parseLines_append_congr {more more' : List (List Char)} (h : ∀ n, parseLines n more = parseLines n more')
    (n : Nat) (lines : List (List Char)) : parseLines n (lines ++ more) = parseLines n (lines ++ more') := by
  rw [parseLines_append, parseLines_append, h]

/-- A line without token can be left out with the same bytes and success. -/
theorem parseLines_leave_out {line : List Char} (h : trimBlank (stripComment line) = []) (n : Nat)
    (before after : List (List Char)) :
    (parseLines n (before ++ line :: after)).toOption = (parseLines n (before ++ after)).toOption := by
  have hafter := parseLines_toOption after (n + before.length + 1) (n + before.length)
  rw [parseLines_append, parseLines_append, parseLines_blank h]
  cases parseLines n before with
  | error e => rfl
  | ok vs =>
    revert hafter
    cases parseLines (n + before.length + 1) after <;> cases parseLines (n + before.length) after <;>
      simp [Except.toOption, Except.bind, Except.map]

/-! ### Comments and blank lines -/

theorem blank_iff {blank : List Char} :
    (∀ c ∈ blank, isBlankChar c = true) ↔ ∀ c ∈ blank, c = ' ' ∨ c = '\t' ∨ c = '\r' :=
  forall₂_congr fun _ _ => isBlankChar_iff

/-- A blank line has no token. -/
theorem token_of_blank {blank : List Char} (h : ∀ c ∈ blank, isBlankChar c = true) :
    trimBlank (stripComment blank) = [] := by
  rw [stripComment_of_notMem (notMem_of_blank h (by decide)), trimBlank_of_blank h]

/-- A comment on the last line of a text can be left out, whatever lines follow. -/
theorem parseLines_comment (n : Nat) (before : List Char) {comment : List Char} (hc : '\n' ∉ comment)
    (after : List (List Char)) :
    parseLines n (splitLines (before ++ '#' :: comment) ++ after) = parseLines n (splitLines before ++ after) := by
  have htail : '\n' ∉ '#' :: comment := by
    rw [List.mem_cons, not_or]; exact ⟨by decide, hc⟩
  obtain ⟨pre, last, hbefore, happ⟩ := splitLines_append_of_notMem before htail
  rw [hbefore, happ, List.append_assoc, List.append_assoc]
  exact parseLines_append_congr
    (fun n => parseLines_cons_congr (by rw [stripComment_append])) n pre

/-- Settles O53: a comment is no part of its line's token, and a line without token gives no byte; in a text the lines
before, at and after a line feed are parsed one after another. -/
theorem commentsAndBlankLinesLoadNothing : Obligations.CommentsAndBlankLinesLoadNothing := by
  refine ⟨fun n body comment rest => parseLines_cons_congr (by rw [stripComment_append]),
    fun n blank comment rest h => ?_, fun n n' lines => parseLines_toOption lines n n',
    fun before comment after hc => ⟨?_, ?_⟩, fun before blank after h => ?_⟩
  · have htoken := token_of_blank (blank_iff.2 h)
    exact ⟨parseLines_blank htoken, parseLines_blank (by rw [stripComment_append, htoken])⟩
  · rw [parseImage, parseImage, splitLines_append, splitLines_append]
    exact parseLines_comment 0 before hc _
  · rw [parseImage, parseImage]
    simpa only [List.append_nil] using parseLines_comment 0 before hc []
  · have hblank := blank_iff.2 h
    have htoken := token_of_blank hblank
    have hline : splitLines blank = [blank] := splitLines_of_notMem (notMem_of_blank hblank (by decide))
    simp only [parseImage, splitLines_append, hline]
    refine ⟨?_, parseLines_leave_out htoken 0 [] _, ?_⟩
    · rw [List.append_assoc]
      exact parseLines_leave_out htoken 0 _ _
    · simpa only [List.append_nil] using parseLines_leave_out htoken 0 (splitLines before) []

/-! ### The eight digits of a byte (R59) -/

/-- The character of a binary digit. -/
def bitChar (b : Bool) : Char := if b then '1' else '0'

/-- The number a list of binary digits writes, first digit most significant. -/
def bitsValue (bits : List Bool) : Nat := bits.foldl (fun n b => 2 * n + b.toNat) 0

/-- Its bit `j` is the digit `j` places from the end. -/
theorem testBit_bitsValue (bits : List Bool) (j : Nat) : (bitsValue bits).testBit j = bits.reverse.getD j false := by
  induction bits using List.reverseRecOn generalizing j with
  | nil => simp [bitsValue]
  | append_singleton bits b ih =>
    have hsnoc : bitsValue (bits ++ [b]) = Nat.bit b (bitsValue bits) := by
      rw [Nat.bit_val, bitsValue, List.foldl_append]; rfl
    rw [hsnoc, List.reverse_append]
    cases j with
    | zero => rw [Nat.testBit_bit_zero]; rfl
    | succ j => rw [Nat.testBit_bit_succ, ih]; rfl

/-- Eight digits are a literal of the number they write. -/
theorem binaryLiteral_bits {bits : List Bool} (h : bits.length = 8) :
    binaryLiteral (bits.map bitChar) = some (BitVec.ofNat 8 (bitsValue bits)) := by
  have hdigit (b : Bool) : (bitChar b = '0' ∨ bitChar b = '1') ∧ (if bitChar b = '1' then 1 else 0) = b.toNat := by
    cases b <;> decide
  simp only [binaryLiteral, bitsValue, List.length_map, h, List.all_map, List.foldl_map, Function.comp_def, hdigit]
  simp [hdigit]

/-- Character `k` of eight is bit `7 - k` of the byte. -/
theorem getLsbD_bitsValue {bits : List Bool} (h : bits.length = 8) {k : Nat} (hk : k < 8) :
    (BitVec.ofNat 8 (bitsValue bits)).getLsbD (7 - k) = bits.getD k false := by
  rw [BitVec.getLsbD_ofNat, testBit_bitsValue, List.getD_eq_getElem?_getD, List.getD_eq_getElem?_getD,
    List.getElem?_reverse (by omega), h, show 8 - 1 - (7 - k) = k by omega]
  simp; omega

/-- A token that is not eight digits is no literal. -/
theorem binaryLiteral_eq_none {token : List Char} (h : ¬ (token.length = 8 ∧ ∀ c ∈ token, c = '0' ∨ c = '1')) :
    binaryLiteral token = none := by
  rw [binaryLiteral, if_neg]
  simpa using h

/-- A line of white space around a token without `#` has that token. -/
theorem token_of_line {lead token trail : List Char} (hlead : ∀ c ∈ lead, isBlankChar c = true)
    (htrail : ∀ c ∈ trail, isBlankChar c = true) (hne : token ≠ []) (hhash : '#' ∉ token)
    (hends : ∀ c, token.head? = some c ∨ token.getLast? = some c → isBlankChar c = false) :
    trimBlank (stripComment (lead ++ token ++ trail)) = token := by
  have hline : '#' ∉ lead ++ token ++ trail := by
    simp only [List.mem_append, not_or]
    exact ⟨⟨notMem_of_blank hlead (by decide), hhash⟩, notMem_of_blank htrail (by decide)⟩
  rw [stripComment_of_notMem hline]
  exact trimBlank_token hlead htrail hne (fun c hc => hends c (.inl hc)) fun c hc => hends c (.inr hc)

/-- Settles O54: the token of the line is what stands between the white space; eight digits are a literal, with its bits
in the order of the characters, and any other token is none. -/
theorem eachSurvivingLineGivesOneByte : Obligations.EachSurvivingLineGivesOneByte := by
  intro n lead trail rest hblank
  have hlead : ∀ c ∈ lead, isBlankChar c = true := fun c hc =>
    isBlankChar_iff.2 (hblank c (List.mem_append_left _ hc))
  have htrail : ∀ c ∈ trail, isBlankChar c = true := fun c hc =>
    isBlankChar_iff.2 (hblank c (List.mem_append_right _ hc))
  constructor
  · intro bits hlen
    have hchars : ∀ c ∈ bits.map bitChar, c = '0' ∨ c = '1' := by
      simp only [List.forall_mem_map]; intro b _; cases b <;> decide
    have hne : bits.map bitChar ≠ [] := by rintro he; simp [List.map_eq_nil_iff.1 he] at hlen
    have htoken : trimBlank (stripComment (lead ++ bits.map bitChar ++ trail)) = bits.map bitChar := by
      refine token_of_line hlead htrail hne (fun hm => by simpa using hchars _ hm) fun c hc => ?_
      obtain rfl | rfl := hchars c (hc.elim List.mem_of_head? List.mem_of_getLast?) <;> decide
    exact ⟨_, fun k hk => getLsbD_bitsValue hlen hk, parseLines_literal htoken hne (binaryLiteral_bits hlen)⟩
  · intro token hne hhash hends hbad
    have htoken : trimBlank (stripComment (lead ++ token ++ trail)) = token := by
      refine token_of_line hlead htrail hne hhash fun c hc => ?_
      rw [← Bool.not_eq_true, isBlankChar_iff]
      have := hends c hc
      tauto
    exact parseLines_malformed htoken hne (binaryLiteral_eq_none hbad)

end Sys2Proof.Machine
end
